-- ==== Sys2Proof/Word.lean ====
section
/-! DEFINITION. The word types of the block: what the spec treats as bits (spec/00_scope.md rule R13). -/

namespace Sys2Proof

/-- One byte, the unit of both buffers, the storage region and the command stream (20_memory.md R31). -/
abbrev Byte := BitVec 8

/-- A 2-byte field or operand (30_encoding.md R55, R63). -/
abbrev Half := BitVec 16

/-- A 4-byte field or operand, and a millisecond timestamp: TIME_WIDTH is 32 (00_scope.md R11). -/
abbrev Word := BitVec 32

/-- The status packet: PACKET_BITS is 64 (00_scope.md R11, 30_encoding.md R60). -/
abbrev Packet := BitVec 64

end Sys2Proof
end

