-- ==== Sys2Proof/Config.lean ====
section
/-! DEFINITION. What is fixed for the machine: the constants of spec/00_scope.md rule R11, the OPEN parameters, and
the free values. Every free value is an opaque constant without a body, so no proof can learn what it is. -/

namespace Sys2Proof

/-- BINDING_BYTE_LAYOUT (30_encoding.md R58): where the pin code and the reversed bit stand in a binding byte. -/
inductive BindingByteLayout where
  /-- PIN_LOW, the default: pin code in bits 6:0, reversed in bit 7. -/
  | pinLow
  /-- PIN_HIGH: pin code in bits 7:1, reversed in bit 0. -/
  | pinHigh
deriving DecidableEq, Repr

/-- The parameters of 00_scope.md R11 whose value the spec leaves open, and the layout. They are read-only and hold
from power-on (10_state.md R26). -/
structure Params where
  /-- TABLE_BASE, the storage address of the table image. -/
  tableBase : Nat
  /-- BUS_ADDRESS, the bus destination of a status packet. -/
  busAddress : Nat
  /-- TYPE_FW_VERSION (41_channel.md R96). -/
  typeFwVersion : Byte
  /-- TYPE_PROG_VERSION (41_channel.md R96). -/
  typeProgVersion : Byte
  /-- TYPE_LOG (41_channel.md R96). -/
  typeLog : Byte
  /-- BINDING_BYTE_LAYOUT (30_encoding.md R58). -/
  layout : BindingByteLayout
deriving DecidableEq, Repr

/-- What a `Storage.write` answers (00_scope.md R12): Ok, or Fail together with the 16 bytes that the failed write
leaves in the region, "any values" (20_memory.md R36). -/
inductive WriteAnswer where
  | ok
  | fail (left : Vector Byte 16)
deriving DecidableEq, Repr, Inhabited

/-- CAPACITY: bytes of one message buffer (00_scope.md R11). -/
abbrev Config.capacity : Nat := 256

/-- HEADER_LEN: sentinel, length and type (00_scope.md R11). -/
abbrev Config.headerLen : Nat := 4

/-- SENTINEL: both of its bytes are 0x24 (00_scope.md R11). -/
abbrev Config.sentinel : Byte := 0x24#8

/-- STR_MAX: the longest string body (00_scope.md R11). -/
abbrev Config.strMax : Nat := 255

/-- NUM_SLOTS (00_scope.md R11). -/
abbrev Config.numSlots : Nat := 16

/-- PIN_MAX, the largest physical pin index (00_scope.md R11). -/
abbrev Config.pinMax : Nat := 126

/-- PERIOD_MS (00_scope.md R11). -/
abbrev Config.periodMs : Nat := 20

/-- PRIORITY, the bus priority of a status packet (00_scope.md R11). -/
abbrev Config.priority : Nat := 2

/-- The longest frame a length byte may announce, LEN at most 253 (30_encoding.md R54). -/
abbrev Config.maxLen : Nat := 253

/-- INIT_BUF_TX by buffer offset 3..255: any bytes, an input under no law (10_state.md R30). FREE VALUE, log 7. -/
opaque Config.initBufTx : Nat → Byte

/-- INIT_BUF_RX by buffer offset 3..255: any bytes, an input under no law (10_state.md R30). FREE VALUE, log 7. -/
opaque Config.initBufRx : Nat → Byte

/-- The storage region at the first power-on, by address: any bytes (20_memory.md R35). FREE VALUE, log 9. -/
opaque Config.initStore : Nat → Byte

/-- OPEN parameter TABLE_BASE (92_eei_decisions.md D16). FREE VALUE, log 3. -/
opaque Config.tableBase : Nat

/-- OPEN parameter BUS_ADDRESS (92_eei_decisions.md D24). FREE VALUE, log 3. -/
opaque Config.busAddress : Nat

/-- An unknown one-to-one renaming of the bytes, from which the three OPEN type constants are taken, so that they are
any three pairwise distinct bytes (92_eei_decisions.md D12). FREE VALUE, log 4. -/
opaque Config.typeIds : Equiv.Perm Byte

/-- Whether the n-th storage read that the environment has queued no answer for succeeds. FREE VALUE, log 5. -/
opaque Config.freeStorageRead : Nat → Bool

/-- The answer to the n-th storage write that the environment has queued no answer for. FREE VALUE, log 5. -/
opaque Config.freeStorageWrite : Nat → WriteAnswer

/-- The answer to the n-th pin read that the environment has queued no answer for. FREE VALUE, log 5. -/
opaque Config.freePinRead : Nat → Bool

/-- Whether the n-th bus write that the environment has queued no answer for succeeds. FREE VALUE, log 5. -/
opaque Config.freeBusWrite : Nat → Bool

/-- The parameters of the machine after reset: the OPEN ones unknown, the layout at the spec's default
(00_scope.md R11, log 3). -/
def Config.params : Params where
  tableBase := Config.tableBase
  busAddress := Config.busAddress
  typeFwVersion := Config.typeIds 0#8
  typeProgVersion := Config.typeIds 1#8
  typeLog := Config.typeIds 2#8
  layout := .pinLow

end Sys2Proof
end

