-- ==== Sys2Proof/Syntax.lean ====
section
/-! DEFINITION. The commands of the block: one constructor per row of spec/opcode_table.json
(spec/30_encoding.md rules R65, R66). -/

namespace Sys2Proof

/-- The codec a codec command addresses: opcode bit 6, 0 for TX and 1 for RX (30_encoding.md R64). -/
inductive CodecId where
  | tx
  | rx
deriving DecidableEq, Repr

/-- A command. Operands are unsigned bit patterns of their format's width (30_encoding.md R67); the count operand of
ADDBYTES, ADDSTRING and the senders is the length of the data. -/
inductive Instr where
  /-- RESET u (40_codec.md R79). -/
  | reset (u : CodecId)
  /-- SETTYPE u, t (40_codec.md R80). -/
  | setType (u : CodecId) (t : Byte)
  /-- GETTYPE u (40_codec.md R81). -/
  | getType (u : CodecId)
  /-- GETLENGTH u (40_codec.md R82). -/
  | getLength (u : CodecId)
  /-- ADDFIXED.B u, v (40_codec.md R83). -/
  | addFixedB (u : CodecId) (v : Byte)
  /-- ADDFIXED.H u, v (40_codec.md R84). -/
  | addFixedH (u : CodecId) (v : Half)
  /-- ADDFIXED.W u, v (40_codec.md R85). -/
  | addFixedW (u : CodecId) (v : Word)
  /-- GETFIXED.B u (40_codec.md R86). -/
  | getFixedB (u : CodecId)
  /-- GETFIXED.H u (40_codec.md R87). -/
  | getFixedH (u : CodecId)
  /-- GETFIXED.W u (40_codec.md R88). -/
  | getFixedW (u : CodecId)
  /-- ADDBYTES u, data (40_codec.md R89). -/
  | addBytes (u : CodecId) (data : List Byte)
  /-- GETBYTES u, n (40_codec.md R90). -/
  | getBytes (u : CodecId) (n : Byte)
  /-- ADDSTRING u, str (40_codec.md R91). -/
  | addString (u : CodecId) (str : List Byte)
  /-- GETSTRING u (40_codec.md R92). -/
  | getString (u : CodecId)
  /-- SEND u (40_codec.md R93). -/
  | send (u : CodecId)
  /-- SENDFW str (41_channel.md R97). -/
  | sendFw (str : List Byte)
  /-- SENDPV str (41_channel.md R98). -/
  | sendPv (str : List Byte)
  /-- SENDLOG str (41_channel.md R99). -/
  | sendLog (str : List Byte)
  /-- RXBYTE b (41_channel.md R100). -/
  | rxByte (b : Byte)
  /-- INIT (42_binding_table.md R106). -/
  | init
  /-- BIND slot, pin, rev (42_binding_table.md R107). -/
  | bind (slot : Byte) (pin : Half) (rev : Byte)
  /-- CLEAR (42_binding_table.md R108). -/
  | clear
  /-- RBIND slot, packed (42_binding_table.md R109). -/
  | rbind (slot : Byte) (packed : Byte)
  /-- TICK now (43_sampler.md R116). -/
  | tick (now : Word)
  /-- BUILD (43_sampler.md R114). -/
  | build
  /-- XMIT packet (43_sampler.md R115). -/
  | xmit (packet : Packet)
deriving DecidableEq, Repr

end Sys2Proof
end

