-- ==== Sys2Proof/Machine/State.lean ====
section
/-! DEFINITION. The state of the machine as plain data, its outputs, its reasons to stop, and the state after reset
(spec/10_state.md; the environment's part: spec/00_scope.md R12 and spec/20_memory.md R35). -/

namespace Sys2Proof.Machine

/-- A byte memory: (address, byte) pairs with strictly rising addresses. An address that is not listed has no value in
the list; what a read of it gives is said where the memory is read (logs 7 and 9). -/
abbrev Memory := List Host.Cell

/-- One codec (10_state.md R15): the written part of `Buf_u` by offset, and `Cursor_u`. Offsets 0 and 1 are the
hard-wired sentinel and are never listed (10_state.md R17, R24). -/
structure Codec where
  buf : Memory
  cursor : Nat
deriving DecidableEq, Repr

/-- The inbound reassembly state `RxState` (10_state.md R20). -/
inductive RxState where
  /-- HUNT0 awaits the first sentinel byte. -/
  | hunt0
  /-- HUNT1 awaits the second sentinel byte. -/
  | hunt1
  /-- LENGTH awaits the length byte. -/
  | length
  /-- BODY stores type and field bytes. -/
  | body
  /-- READY holds a complete frame for the host's handler. -/
  | ready
deriving DecidableEq, Repr

/-- One binding slot (10_state.md R22). -/
structure Slot where
  pin : Option (Fin 127)
  reversed : Bool
deriving DecidableEq, Repr

/-- The error codes (60_exceptions.md R123); their numbers are in Machine/Flags.lean. -/
inductive Err where
  | bufferOverflow
  | truncatedMessage
  | invalidIndex
  | invalidPin
  | persistenceFailure
  | transmitFailure
  | illegalCommand
  | malformedFrame
  | rxBusy
deriving DecidableEq, Repr

/-- What a command returns with Ok. -/
inductive Value where
  /-- `Ok(())`. -/
  | unit
  /-- 8 bits (GETTYPE, GETLENGTH, GETFIXED.B). -/
  | byte (v : Byte)
  /-- 16 bits (GETFIXED.H). -/
  | half (v : Half)
  /-- 32 bits (GETFIXED.W). -/
  | word (v : Word)
  /-- 64 bits (BUILD). -/
  | packet (p : Packet)
  /-- Raw bytes (GETBYTES, GETSTRING). -/
  | bytes (bs : List Byte)
  /-- `Pending` (RXBYTE). -/
  | pending
  /-- `Complete(t)` (RXBYTE). -/
  | complete (t : Byte)
  /-- `Sent` (TICK). -/
  | sent
  /-- `NotSent` (TICK). -/
  | notSent
deriving DecidableEq, Repr

/-- The one result of a command (00_scope.md R14). -/
inductive Result where
  | ok (v : Value)
  | err (e : Err)
deriving DecidableEq, Repr

/-- What is logged (43_sampler.md R115). -/
inductive LogEvent where
  | transmitFailure
deriving DecidableEq, Repr

/-- A collaborator call (00_scope.md R12). -/
inductive Effect where
  /-- `Transport.write(bytes)`. -/
  | transportWrite (bytes : List Byte)
  /-- `Storage.read(addr, n)`. -/
  | storageRead (addr n : Nat)
  /-- `Storage.write(addr, bytes)`. -/
  | storageWrite (addr : Nat) (bytes : List Byte)
  /-- `Pins.configureInput(pin)`. -/
  | configureInput (pin : Fin 127)
  /-- `Pins.readDigital(pin)`. -/
  | readDigital (pin : Fin 127)
  /-- `Bus.writePacket(bytes, length, priority)`, sent to `dest` (43_sampler.md R115, log 18). -/
  | busWritePacket (dest : Nat) (bytes : List Byte) (length priority : Nat)
  /-- `Log(event)`. -/
  | log (event : LogEvent)
deriving DecidableEq, Repr

/-- The environment's answers still to come, oldest first, one queue for each call that is answered
(00_scope.md R12). Where a queue is empty the answer is a free value of Config, drawn at `freeIndex` (log 5). -/
structure Env where
  /-- Whether each coming `Storage.read` succeeds. -/
  storageReads : List Bool
  /-- What each coming `Storage.write` answers. -/
  storageWrites : List WriteAnswer
  /-- The bit of each coming `Pins.readDigital`. -/
  pinReads : List Bool
  /-- Whether each coming `Bus.writePacket` succeeds. -/
  busWrites : List Bool
  /-- The model's own counter of free answers drawn so far (log 6). -/
  freeIndex : Nat
deriving DecidableEq, Repr

/-- The machine and what it touches. -/
structure State where
  /-- The parameters of 00_scope.md R11, fixed from power-on (10_state.md R26, log 3). -/
  params : Params
  /-- The outgoing codec (10_state.md R15). -/
  tx : Codec
  /-- The incoming codec (10_state.md R15). -/
  rx : Codec
  /-- `RxState` (10_state.md R20). -/
  rxState : RxState
  /-- `RxCount` (10_state.md R20). -/
  rxCount : Nat
  /-- `Slot[0..15]` (10_state.md R22). -/
  slots : Vector Slot 16
  /-- `LastSentMs` (10_state.md R23). -/
  lastSentMs : Word
  /-- `Store`, environment state, by address (20_memory.md R35, log 9). -/
  store : Memory
  /-- The environment's answers (00_scope.md R12). -/
  env : Env
  /-- The host's command bytes that no step has taken yet (30_encoding.md R62, log 1). -/
  commands : List Byte
  /-- The result of every command so far, oldest first (00_scope.md R14, log 2). -/
  results : List Result
  /-- Every collaborator call so far, oldest first, the one sequence of 20_memory.md R46 (log 2). -/
  effects : List Effect
deriving DecidableEq, Repr

/-- Why the machine stops with a fault. No rule of the spec stops the block (00_scope.md R14). -/
inductive Fault where
  /-- An access to an offset of 256 or more, which no buffer has (20_memory.md R32: "is never accessed"). Raised by
  GETFIXED.*, GETBYTES, GETSTRING, SEND and RXBYTE, only in states that no run reaches (log 10). Safe. -/
  | offsetBeyondBuffer
deriving DecidableEq, Repr

/-- Why a step has no next state although nothing is wrong with the machine. -/
inductive Refusal where
  /-- Raised by exec for a command that has no meaning yet. Safe. -/
  | notModelled (mnemonic : String)
  /-- Raised by step where the command stream ends before a whole command: refused at the boundary, with the offset
  from the command's first byte at which it ended, and no step happens (30_encoding.md R70, log 12). Safe. -/
  | incompleteCommand (offset : Nat)
deriving DecidableEq, Repr

/-- A codec right after construction: construction performs RESET, so `Cursor` is 4 and byte 2 holds 1; bytes 3..255
are not written and hold INIT_BUF (10_state.md R30). -/
def Codec.powerOn : Codec where
  buf := [(2, 1#8)]
  cursor := 4

/-- An unbound slot, `(None, false)` (10_state.md R30). -/
def Slot.unbound : Slot where
  pin := none
  reversed := false

/-- The machine right after power-on, before its first command (10_state.md R30, 70_reset_and_hazards.md R140). -/
def State.reset : State where
  params := Config.params
  tx := Codec.powerOn
  rx := Codec.powerOn
  rxState := .hunt0
  rxCount := 0
  slots := Vector.replicate 16 Slot.unbound
  lastSentMs := 0#32
  store := []
  env := ⟨[], [], [], [], 0⟩
  commands := []
  results := []
  effects := []

end Sys2Proof.Machine
end

