-- ==== Sys2Proof/Machine/Flags.lean ====
section
/-! DEFINITION. The block has no condition flags (spec/10_state.md R25): every outcome a program can branch on is in
the result of a command. What stands in for them is the numeric code of a result (spec/60_exceptions.md R123). -/

namespace Sys2Proof.Machine

/-- The number of an error code (60_exceptions.md R123). -/
def Err.code : Err → Byte
  | .bufferOverflow => 0x01
  | .truncatedMessage => 0x02
  | .invalidIndex => 0x03
  | .invalidPin => 0x04
  | .persistenceFailure => 0x05
  | .transmitFailure => 0x06
  | .illegalCommand => 0x07
  | .malformedFrame => 0x08
  | .rxBusy => 0x09

/-- The code of a result: 0x00 is Ok (60_exceptions.md R123). -/
def Result.code : Result → Byte
  | .ok _ => 0x00
  | .err e => e.code

end Sys2Proof.Machine
end

