-- ==== Sys2Proof/WellFormed.lean ====
section
/-! DEFINITION. Which commands have an encoding: the count operand of the formats FB and FS must be able to hold the
length of the data (spec/30_encoding.md rules R63, R68). All other operands are as wide as their format. -/

namespace Sys2Proof

/-- FB: the count is b[1], 0..255 (30_encoding.md R63). -/
abbrev fitsFB (data : List Byte) : Bool := decide (data.length ≤ 255)

/-- FS: the count is b[2] ++ b[1], 0..65535 (30_encoding.md R63). -/
abbrev fitsFS (data : List Byte) : Bool := decide (data.length ≤ 65535)

/-- A command that some byte sequence encodes. BIND with a `rev` other than 0 or 1 has an encoding; running it raises
IllegalCommand (42_binding_table.md R107). -/
def Instr.wf : Instr → Bool
  | .reset _ => true
  | .setType _ _ => true
  | .getType _ => true
  | .getLength _ => true
  | .addFixedB _ _ => true
  | .addFixedH _ _ => true
  | .addFixedW _ _ => true
  | .getFixedB _ => true
  | .getFixedH _ => true
  | .getFixedW _ => true
  | .addBytes _ data => fitsFB data
  | .getBytes _ _ => true
  | .addString _ str => fitsFS str
  | .getString _ => true
  | .send _ => true
  | .sendFw str => fitsFS str
  | .sendPv str => fitsFS str
  | .sendLog str => fitsFS str
  | .rxByte _ => true
  | .init => true
  | .bind _ _ _ => true
  | .clear => true
  | .rbind _ _ => true
  | .tick _ => true
  | .build => true
  | .xmit _ => true

end Sys2Proof
end

