-- ==== Sys2Proof/Decode.lean ====
section
/-! DEFINITION. The decoder and the encoder of commands (spec/30_encoding.md Part B), and the byte-order helpers they
share with the machine. The decoder is total on any byte sequence: a command, a reserved opcode, or a refusal with the
offset where the bytes ended. -/

namespace Sys2Proof

/-! ### Byte order (20_memory.md R37) -/

/-- The low `n` bytes of `v`, least significant first: byte k is `v[8k+7:8k]` (20_memory.md R37, R38). -/
def leBytes {w : Nat} (n : Nat) (v : BitVec w) : List Byte :=
  (List.range n).map fun k => v.extractLsb' (8 * k) 8

/-- The little-endian value of a byte sequence, `Σ b[k] * 2^(8k)` (00_scope.md R13, MemRead). -/
def leValue : List Byte → Nat
  | [] => 0
  | b :: bs => b.toNat + 256 * leValue bs

/-! ### Formats (30_encoding.md R63) -/

/-- The command formats of 30_encoding.md R63. -/
inductive Format where
  | f0
  | f8
  | f16
  | f32
  | f64
  | fb
  | fs
  | fbind
  | frb
deriving DecidableEq, Repr

/-- The operands a format carries. -/
abbrev Format.Args : Format → Type
  | .f0 => Unit
  | .f8 => Byte
  | .f16 => Half
  | .f32 => Word
  | .f64 => Packet
  | .fb => List Byte
  | .fs => List Byte
  | .fbind => Byte × Half × Byte
  | .frb => Byte × Byte

/-- The first `n` bytes and the rest, if there are that many. -/
def takeData (n : Nat) (bs : List Byte) : Option (List Byte × List Byte) :=
  if n ≤ bs.length then some (bs.take n, bs.drop n) else none

/-- The operands of a format read from the bytes after the opcode, and the bytes that follow them; none where the
bytes end first. Operands wider than a byte are little-endian (30_encoding.md R62, R63). -/
def Format.parse : (f : Format) → List Byte → Option (f.Args × List Byte)
  | .f0, bs => some ((), bs)
  | .f8, b1 :: bs => some (b1, bs)
  | .f16, b1 :: b2 :: bs => some (b2 ++ b1, bs)
  | .f32, b1 :: b2 :: b3 :: b4 :: bs => some (b4 ++ b3 ++ b2 ++ b1, bs)
  | .f64, b1 :: b2 :: b3 :: b4 :: b5 :: b6 :: b7 :: b8 :: bs =>
    some (b8 ++ b7 ++ b6 ++ b5 ++ b4 ++ b3 ++ b2 ++ b1, bs)
  | .fb, n :: bs => takeData n.toNat bs
  | .fs, n0 :: n1 :: bs => takeData (n1 ++ n0 : Half).toNat bs
  | .fbind, b1 :: b2 :: b3 :: b4 :: bs => some ((b1, b3 ++ b2, b4), bs)
  | .frb, b1 :: b2 :: bs => some ((b1, b2), bs)
  | _, _ => none

/-- The length of a command of this format, from the bytes after the opcode; none where the count operand is not
all there (30_encoding.md R68). -/
def Format.length : Format → List Byte → Option Nat
  | .f0, _ => some 1
  | .f8, _ => some 2
  | .f16, _ => some 3
  | .f32, _ => some 5
  | .f64, _ => some 9
  | .fbind, _ => some 5
  | .frb, _ => some 3
  | .fb, n :: _ => some (2 + n.toNat)
  | .fs, n0 :: n1 :: _ => some (3 + (n1 ++ n0 : Half).toNat)
  | .fb, _ => none
  | .fs, _ => none

/-! ### The opcode map (30_encoding.md R65, R66) -/

/-- One row of the opcode map: it matches an opcode byte `op` with `op & mask = pattern` (30_encoding.md R75). -/
structure Row where
  pattern : Byte
  mask : Byte
  format : Format
  build : CodecId → format.Args → Instr

/-- The opcode map of 30_encoding.md R65 (codec rows, bit 6 free) and R66 (channel, table and sampler rows). -/
def opcodeTable : List Row := [
  ⟨0x00, 0xBF, .f0, fun u _ => .reset u⟩,
  ⟨0x01, 0xBF, .f8, fun u t => .setType u t⟩,
  ⟨0x02, 0xBF, .f0, fun u _ => .getType u⟩,
  ⟨0x03, 0xBF, .f0, fun u _ => .getLength u⟩,
  ⟨0x04, 0xBF, .f8, fun u v => .addFixedB u v⟩,
  ⟨0x05, 0xBF, .f16, fun u v => .addFixedH u v⟩,
  ⟨0x06, 0xBF, .f32, fun u v => .addFixedW u v⟩,
  ⟨0x08, 0xBF, .f0, fun u _ => .getFixedB u⟩,
  ⟨0x09, 0xBF, .f0, fun u _ => .getFixedH u⟩,
  ⟨0x0A, 0xBF, .f0, fun u _ => .getFixedW u⟩,
  ⟨0x0C, 0xBF, .fb, fun u data => .addBytes u data⟩,
  ⟨0x0D, 0xBF, .f8, fun u n => .getBytes u n⟩,
  ⟨0x0E, 0xBF, .fs, fun u str => .addString u str⟩,
  ⟨0x0F, 0xBF, .f0, fun u _ => .getString u⟩,
  ⟨0x10, 0xBF, .f0, fun u _ => .send u⟩,
  ⟨0x80, 0xFF, .fs, fun _ str => .sendFw str⟩,
  ⟨0x81, 0xFF, .fs, fun _ str => .sendPv str⟩,
  ⟨0x82, 0xFF, .fs, fun _ str => .sendLog str⟩,
  ⟨0x83, 0xFF, .f8, fun _ b => .rxByte b⟩,
  ⟨0x90, 0xFF, .f0, fun _ _ => .init⟩,
  ⟨0x91, 0xFF, .fbind, fun _ a => .bind a.1 a.2.1 a.2.2⟩,
  ⟨0x92, 0xFF, .f0, fun _ _ => .clear⟩,
  ⟨0x93, 0xFF, .frb, fun _ a => .rbind a.1 a.2⟩,
  ⟨0xA0, 0xFF, .f32, fun _ now => .tick now⟩,
  ⟨0xA1, 0xFF, .f0, fun _ _ => .build⟩,
  ⟨0xA2, 0xFF, .f64, fun _ packet => .xmit packet⟩]

/-- The row matches the opcode byte (30_encoding.md R74, R75). -/
def Row.matches (r : Row) (op : Byte) : Bool := op &&& r.mask == r.pattern

/-- The row of an opcode byte; none for a reserved opcode (30_encoding.md R69). -/
def opcodeRow (op : Byte) : Option Row := opcodeTable.find? (·.matches op)

/-- The codec that an opcode byte selects, bit 6 (30_encoding.md R64). -/
def opcodeCodec (op : Byte) : CodecId := if op.getLsbD 6 then .rx else .tx

/-! ### Decoding -/

/-- What the decoder reads from a byte sequence. -/
inductive Decoded where
  /-- A command, and the bytes after it. -/
  | command (i : Instr) (rest : List Byte)
  /-- A reserved opcode, a 1-byte command (30_encoding.md R69), and the bytes after it. -/
  | reserved (op : Byte) (rest : List Byte)
  /-- The bytes end before the command does: refused, with the offset where they ended (30_encoding.md R70). -/
  | incomplete (offset : Nat)
deriving DecidableEq, Repr

/-- Decode the first command of a byte sequence. -/
def decode : List Byte → Decoded
  | [] => .incomplete 0
  | op :: bs =>
    match opcodeRow op with
    | none => .reserved op bs
    | some r =>
      match r.format.parse bs with
      | none => .incomplete (bs.length + 1)
      | some (args, rest) => .command (r.build (opcodeCodec op) args) rest

/-- `Length(b)` of 30_encoding.md R68, from the first one to three bytes; none where they are not all there. -/
def commandLength : List Byte → Option Nat
  | [] => none
  | op :: bs =>
    match opcodeRow op with
    | none => some 1
    | some r => r.format.length bs

/-! ### Encoding -/

/-- A codec opcode: the function in bits 5:0, the codec in bit 6, bit 7 clear (30_encoding.md R64). -/
def codecOpcode (u : CodecId) (f : Byte) : Byte :=
  match u with
  | .tx => f
  | .rx => f ||| 0x40#8

/-- Format FB after the opcode: the 1-byte count and the data (30_encoding.md R63). -/
def encodeFB (data : List Byte) : List Byte := BitVec.ofNat 8 data.length :: data

/-- Format FS after the opcode: the 2-byte count, little-endian, and the data (30_encoding.md R63). -/
def encodeFS (data : List Byte) : List Byte := leBytes 2 (BitVec.ofNat 16 data.length) ++ data

/-- The bytes of a command (30_encoding.md R63, R65, R66). -/
def encode : Instr → List Byte
  | .reset u => [codecOpcode u 0x00]
  | .setType u t => [codecOpcode u 0x01, t]
  | .getType u => [codecOpcode u 0x02]
  | .getLength u => [codecOpcode u 0x03]
  | .addFixedB u v => [codecOpcode u 0x04, v]
  | .addFixedH u v => codecOpcode u 0x05 :: leBytes 2 v
  | .addFixedW u v => codecOpcode u 0x06 :: leBytes 4 v
  | .getFixedB u => [codecOpcode u 0x08]
  | .getFixedH u => [codecOpcode u 0x09]
  | .getFixedW u => [codecOpcode u 0x0A]
  | .addBytes u data => codecOpcode u 0x0C :: encodeFB data
  | .getBytes u n => [codecOpcode u 0x0D, n]
  | .addString u str => codecOpcode u 0x0E :: encodeFS str
  | .getString u => [codecOpcode u 0x0F]
  | .send u => [codecOpcode u 0x10]
  | .sendFw str => 0x80 :: encodeFS str
  | .sendPv str => 0x81 :: encodeFS str
  | .sendLog str => 0x82 :: encodeFS str
  | .rxByte b => [0x83, b]
  | .init => [0x90]
  | .bind slot pin rev => 0x91 :: slot :: (leBytes 2 pin ++ [rev])
  | .clear => [0x92]
  | .rbind slot packed => [0x93, slot, packed]
  | .tick now => 0xA0 :: leBytes 4 now
  | .build => [0xA1]
  | .xmit packet => 0xA2 :: leBytes 8 packet

/-! ### Words of the opcode table, for the host -/

/-- Byte k of a number whose bits count from the first byte of a command, the bits from `nbits` on being 0. -/
def tableByte (nbits w k : Nat) : Byte := BitVec.ofNat 8 ((w % 2 ^ nbits) >>> (8 * k))

/-- The bytes of the whole command whose first `nbits` bits are `w`, every later bit 0: as many bytes as the
command's own length says (30_encoding.md R68). -/
def tableBytes (nbits w : Nat) : List Byte :=
  (List.range ((commandLength [tableByte nbits w 0, tableByte nbits w 1, tableByte nbits w 2]).getD 1)).map
    (tableByte nbits w)

/-- The command the decoder reads from a table word; none where it is reserved. -/
def decodeTableWord (nbits w : Nat) : Option Instr :=
  match decode (tableBytes nbits w) with
  | .command i _ => some i
  | .reserved _ _ => none
  | .incomplete _ => none

end Sys2Proof
end

