-- ==== Sys2Proof/Machine/Operands.lean ====
section
/-! DEFINITION. The packed operands of the block: pin codes, binding bytes and the table image (spec/30_encoding.md
R57 to R59), and the tests on operand values (spec/42_binding_table.md R104). -/

namespace Sys2Proof.Machine

/-- `PinCode` (30_encoding.md R57): 0 is unbound, n + 1 is pin n. -/
def pinCode : Option (Fin 127) → BitVec 7
  | none => 0#7
  | some n => BitVec.ofNat 7 (n.val + 1)

/-- `PinOf` (30_encoding.md R57). -/
def pinOf (c : BitVec 7) : Option (Fin 127) :=
  if c = 0#7 then none
  else some ⟨c.toNat - 1, by have := c.isLt; omega⟩

/-- One bit for a Bool. -/
def bit (b : Bool) : BitVec 1 := BitVec.ofBool b

/-- `Pack` (30_encoding.md R58). -/
def packSlot (layout : BindingByteLayout) (s : Slot) : Byte :=
  match layout with
  | .pinLow => bit s.reversed ++ pinCode s.pin
  | .pinHigh => pinCode s.pin ++ bit s.reversed

/-- `Unpack` (30_encoding.md R58). -/
def unpackSlot (layout : BindingByteLayout) (b : Byte) : Slot :=
  match layout with
  | .pinLow => ⟨pinOf (b.extractLsb' 0 7), b.getLsbD 7⟩
  | .pinHigh => ⟨pinOf (b.extractLsb' 1 7), b.getLsbD 0⟩

/-- `Image` (30_encoding.md R59): byte i is `Pack(Slot[i])`. -/
def tableImage (layout : BindingByteLayout) (slots : Vector Slot 16) : List Byte :=
  slots.toList.map (packSlot layout)

/-- `LoadImage` (30_encoding.md R59): slot i is `Unpack(b[i])`. -/
def loadImage (layout : BindingByteLayout) (b : Fin 16 → Byte) : Vector Slot 16 :=
  Vector.ofFn fun i => unpackSlot layout (b i)

/-- A slot operand, if it is valid: 0..15 (42_binding_table.md R104). -/
def slotOperand (slot : Byte) : Option (Fin 16) :=
  if h : slot.toNat < 16 then some ⟨slot.toNat, h⟩ else none

/-- A pin operand, if it is valid: 0..126 (42_binding_table.md R104). -/
def pinOperand (pin : Half) : Option (Fin 127) :=
  if h : pin.toNat ≤ Config.pinMax then some ⟨pin.toNat, Nat.lt_succ_of_le h⟩ else none

end Sys2Proof.Machine
end

