-- ==== Sys2Proof/Machine/Ops.lean ====
section
/-! DEFINITION. The operations every meaning is built from: byte memories, codec buffers and cursors, results and
errors, effects and the environment's answers (spec/00_scope.md R12, R13, spec/20_memory.md, spec/40_codec.md R76 to
R78). -/

namespace Sys2Proof.Machine

/-- What a meaning answers. -/
abbrev Outcome := Host.Outcome State Fault Refusal

/-! ### Byte memories -/

/-- The canonical form: addresses strictly rising, all of them in `lo .. hi - 1`. -/
def Memory.wf (lo hi : Nat) : Memory → Bool
  | [] => true
  | (a, _) :: m => decide (lo ≤ a) && decide (a < hi) && Memory.wf (a + 1) hi m

/-- The byte listed for an address; none where the address is not listed. -/
def Memory.read (a : Nat) : Memory → Option Byte
  | [] => none
  | (b, w) :: m => if a = b then some w else Memory.read a m

/-- Write one byte, keeping the addresses in rising order. -/
def Memory.write (a : Nat) (v : Byte) : Memory → Memory
  | [] => [(a, v)]
  | (b, w) :: m =>
    if a < b then (a, v) :: (b, w) :: m
    else if a = b then (a, v) :: m
    else (b, w) :: Memory.write a v m

/-- Write a byte sequence at consecutive addresses. -/
def Memory.writeBytes (a : Nat) : List Byte → Memory → Memory
  | [], m => m
  | v :: vs, m => Memory.writeBytes (a + 1) vs (m.write a v)

/-! ### Codec buffers and cursors (10_state.md R15 to R19) -/

/-- What a buffer byte that nothing has written holds: INIT_BUF, a free value (10_state.md R30, log 7). -/
def initBuf : CodecId → Nat → Byte
  | .tx => Config.initBufTx
  | .rx => Config.initBufRx

/-- The codec `u` selects. -/
def State.codec (s : State) : CodecId → Codec
  | .tx => s.tx
  | .rx => s.rx

/-- Replace the codec `u` selects. -/
def State.setCodec (s : State) (u : CodecId) (c : Codec) : State :=
  match u with
  | .tx => { s with tx := c }
  | .rx => { s with rx := c }

/-- Byte `a` of the buffer of codec `u`. Offsets 0 and 1 are hard-wired to the sentinel (10_state.md R17, R24,
log 8). -/
def Codec.byte (c : Codec) (u : CodecId) (a : Nat) : Byte :=
  if a < 2 then Config.sentinel else (c.buf.read a).getD (initBuf u a)

/-- `Buf_u[a]`. -/
def State.byte (s : State) (u : CodecId) (a : Nat) : Byte := (s.codec u).byte u a

/-- `Bytes_u(a, n)` (00_scope.md R13). -/
def State.bytes (s : State) (u : CodecId) (a n : Nat) : List Byte :=
  (List.range n).map fun k => s.byte u (a + k)

/-- `Bytes_u(a, n)` where all n offsets exist; none where one is 256 or more (20_memory.md R32). -/
def State.bytes? (s : State) (u : CodecId) (a n : Nat) : Option (List Byte) :=
  if n = 0 ∨ a + n ≤ Config.capacity then some (s.bytes u a n) else none

/-- Write one buffer byte; the hard-wired offsets 0 and 1 keep the sentinel (10_state.md R17, R24, log 8). -/
def Codec.setByte (c : Codec) (a : Nat) (v : Byte) : Codec :=
  if a < 2 then c else { c with buf := c.buf.write a v }

/-- Write a byte sequence at consecutive offsets (00_scope.md R13, MemWrite, on the bytes of the value). -/
def Codec.setBytes (c : Codec) (a : Nat) : List Byte → Codec
  | [] => c
  | v :: vs => (c.setByte a v).setBytes (a + 1) vs

/-- `Buf_u[a] <- v`. -/
def State.setByte (s : State) (u : CodecId) (a : Nat) (v : Byte) : State :=
  s.setCodec u ((s.codec u).setByte a v)

/-- `Cursor_u <- n`. -/
def State.setCursor (s : State) (u : CodecId) (n : Nat) : State :=
  s.setCodec u { s.codec u with cursor := n }

/-- `updateLength(u)` (40_codec.md R78): `Buf_u[2] <- (Cursor_u - 3) mod 2^8`. -/
def State.updateLength (s : State) (u : CodecId) : State :=
  s.setByte u 2 (BitVec.ofNat 8 (s.codec u).cursor - 3#8)

/-- The codec part of RESET (40_codec.md R79): cursor to 4, length byte recomputed. -/
def State.rewind (s : State) (u : CodecId) : State :=
  (s.setCursor u Config.headerLen).updateLength u

/-- `FrameEnd(u)` (40_codec.md R76). -/
def State.frameEnd (s : State) (u : CodecId) : Nat :=
  if u = .rx ∧ s.rxState = .ready then (s.byte .rx 2).toNat + 3 else (s.codec u).cursor

/-- `Remaining(u)` (40_codec.md R76). -/
def State.remaining (s : State) (u : CodecId) : Nat :=
  s.frameEnd u - (s.codec u).cursor

/-! ### Results (00_scope.md R13, R14; 60_exceptions.md R120) -/

/-- End the command with a result. -/
def State.answer (s : State) (r : Result) : State :=
  { s with results := s.results ++ [r] }

/-- `return v`: end the command with `Ok(v)`. -/
def State.ret (s : State) (v : Value) : State :=
  s.answer (.ok v)

/-- `raise e`: end the command with `Err(e)`. This is all that taking an error does: it saves nothing, changes no mode
and jumps nowhere, and the state stays as it stands at the raise (60_exceptions.md R120). There is nothing to return
from (R121). -/
def State.raise (s : State) (e : Err) : State :=
  s.answer (.err e)

/-! ### Effects and answers (00_scope.md R12) -/

/-- `emit C`: append a collaborator call to the sequence of effects. -/
def State.emit (s : State) (e : Effect) : State :=
  { s with effects := s.effects ++ [e] }

/-- Append several calls, in order. -/
def State.emitAll (s : State) (es : List Effect) : State :=
  { s with effects := s.effects ++ es }

/-- The answer to the next `Storage.read`, and the environment after it. -/
def Env.nextStorageRead (e : Env) : Bool × Env :=
  match e.storageReads with
  | b :: bs => (b, { e with storageReads := bs })
  | [] => (Config.freeStorageRead e.freeIndex, { e with freeIndex := e.freeIndex + 1 })

/-- The answer to the next `Storage.write`, and the environment after it. -/
def Env.nextStorageWrite (e : Env) : WriteAnswer × Env :=
  match e.storageWrites with
  | b :: bs => (b, { e with storageWrites := bs })
  | [] => (Config.freeStorageWrite e.freeIndex, { e with freeIndex := e.freeIndex + 1 })

/-- The answer to the next `Pins.readDigital`, and the environment after it. -/
def Env.nextPinRead (e : Env) : Bool × Env :=
  match e.pinReads with
  | b :: bs => (b, { e with pinReads := bs })
  | [] => (Config.freePinRead e.freeIndex, { e with freeIndex := e.freeIndex + 1 })

/-- The answer to the next `Bus.writePacket`, and the environment after it. -/
def Env.nextBusWrite (e : Env) : Bool × Env :=
  match e.busWrites with
  | b :: bs => (b, { e with busWrites := bs })
  | [] => (Config.freeBusWrite e.freeIndex, { e with freeIndex := e.freeIndex + 1 })

/-- `Store[a]`: the byte written there, or the unknown contents of the first power-on (20_memory.md R35, log 9). -/
def State.storeByte (s : State) (a : Nat) : Byte :=
  (s.store.read a).getD (Config.initStore a)

/-! ### Power-on (70_reset_and_hazards.md R140) -/

/-- Power-on from any state: every element of block state to its value of 10_state.md R30, no effect, the storage
region as it was (20_memory.md R35). `State.reset` is the same with nothing before it (log 13). -/
def State.powerOn (s : State) : State :=
  { s with
    tx := State.reset.tx
    rx := State.reset.rx
    rxState := State.reset.rxState
    rxCount := State.reset.rxCount
    slots := State.reset.slots
    lastSentMs := State.reset.lastSentMs }

end Sys2Proof.Machine
end

