-- ==== Sys2Proof/Machine/Codec.lean ====
section
/-! DEFINITION. The MessageCodec commands (spec/40_codec.md R76 to R95). -/

namespace Sys2Proof.Machine

/-! ### Shared forms -/

/-- The mutating functions run on TX only; addressed to RX they raise IllegalCommand before any write
(40_codec.md R77). -/
def State.onTx (s : State) (u : CodecId) (f : State → State) : State :=
  match u with
  | .rx => s.raise .illegalCommand
  | .tx => f s

/-- A successful append to TX: the bytes at the cursor, the cursor past them, the length byte recomputed
(40_codec.md R78, R83 to R91). -/
def State.append (s : State) (bs : List Byte) : State :=
  ((s.setCodec .tx (s.tx.setBytes s.tx.cursor bs)).setCursor .tx (s.tx.cursor + bs.length)).updateLength .tx

/-- An append to TX, or BufferOverflow with no change where it would pass offset 255 (60_exceptions.md R124). -/
def State.addField (s : State) (bs : List Byte) : State :=
  if s.tx.cursor + bs.length > Config.capacity then s.raise .bufferOverflow else (s.append bs).ret .unit

/-- A string field: the 1-byte length and the body, cut to 255 bytes (30_encoding.md R56, 40_codec.md R91). -/
def stringField (str : List Byte) : List Byte :=
  BitVec.ofNat 8 (str.take Config.strMax).length :: str.take Config.strMax

/-- A read of n bytes at the cursor: TruncatedMessage with no change where fewer remain, else the bytes are returned
and the cursor passes them (40_codec.md R86 to R90; 60_exceptions.md R125). -/
def State.fetch (s : State) (u : CodecId) (n : Nat) (value : List Byte → Value) : Outcome :=
  if s.remaining u < n then .next (s.raise .truncatedMessage)
  else
    match s.bytes? u (s.codec u).cursor n with
    | none => .fault .offsetBeyondBuffer
    | some bs => .next ((s.setCursor u ((s.codec u).cursor + n)).ret (value bs))

/-! ### Header commands -/

/-- RESET (40_codec.md R79). -/
def execReset (u : CodecId) (s : State) : Outcome :=
  let s := s.rewind u
  .next (match u with
    | .tx => s.ret .unit
    | .rx => { s with rxState := .hunt0, rxCount := 0 }.ret .unit)

/-- SETTYPE (40_codec.md R80). -/
def execSetType (u : CodecId) (t : Byte) (s : State) : Outcome :=
  .next (s.onTx u fun s => (s.setByte .tx 3 t).ret .unit)

/-- GETTYPE (40_codec.md R81). -/
def execGetType (u : CodecId) (s : State) : Outcome :=
  .next (if u = .rx ∧ s.rxState ≠ .ready then s.raise .truncatedMessage else s.ret (.byte (s.byte u 3)))

/-- GETLENGTH (40_codec.md R82). -/
def execGetLength (u : CodecId) (s : State) : Outcome :=
  .next (s.ret (.byte (s.byte u 2)))

/-! ### Fixed-width fields -/

/-- ADDFIXED.B (40_codec.md R83). -/
def execAddFixedB (u : CodecId) (v : Byte) (s : State) : Outcome :=
  .next (s.onTx u fun s => s.addField (leBytes 1 v))

/-- ADDFIXED.H (40_codec.md R84). -/
def execAddFixedH (u : CodecId) (v : Half) (s : State) : Outcome :=
  .next (s.onTx u fun s => s.addField (leBytes 2 v))

/-- ADDFIXED.W (40_codec.md R85). -/
def execAddFixedW (u : CodecId) (v : Word) (s : State) : Outcome :=
  .next (s.onTx u fun s => s.addField (leBytes 4 v))

/-- GETFIXED.B (40_codec.md R86). -/
def execGetFixedB (u : CodecId) (s : State) : Outcome :=
  s.fetch u 1 fun bs => .byte (BitVec.ofNat 8 (leValue bs))

/-- GETFIXED.H (40_codec.md R87). -/
def execGetFixedH (u : CodecId) (s : State) : Outcome :=
  s.fetch u 2 fun bs => .half (BitVec.ofNat 16 (leValue bs))

/-- GETFIXED.W (40_codec.md R88). -/
def execGetFixedW (u : CodecId) (s : State) : Outcome :=
  s.fetch u 4 fun bs => .word (BitVec.ofNat 32 (leValue bs))

/-! ### Raw bytes and strings -/

/-- ADDBYTES (40_codec.md R89). -/
def execAddBytes (u : CodecId) (data : List Byte) (s : State) : Outcome :=
  .next (s.onTx u fun s => s.addField data)

/-- GETBYTES (40_codec.md R90). -/
def execGetBytes (u : CodecId) (n : Byte) (s : State) : Outcome :=
  s.fetch u n.toNat .bytes

/-- ADDSTRING (40_codec.md R91). -/
def execAddString (u : CodecId) (str : List Byte) (s : State) : Outcome :=
  .next (s.onTx u fun s => s.addField (stringField str))

/-- GETSTRING (40_codec.md R92): the length byte and then the body, or TruncatedMessage with no change where either is
not all there. The bytes it moves are one read of 1 + m bytes whose first is the length byte. -/
def execGetString (u : CodecId) (s : State) : Outcome :=
  if s.remaining u < 1 then .next (s.raise .truncatedMessage)
  else
    match s.bytes? u (s.codec u).cursor 1 with
    | none => .fault .offsetBeyondBuffer
    | some l => s.fetch u (1 + leValue l) fun bs => .bytes (bs.drop 1)

/-! ### Send -/

/-- SEND (40_codec.md R93): `Bytes_TX(0, L + 3)` to the transport; no state changes. -/
def execSend (u : CodecId) (s : State) : Outcome :=
  match u with
  | .rx => .next (s.raise .illegalCommand)
  | .tx =>
    match s.bytes? .tx 0 ((s.byte .tx 2).toNat + 3) with
    | none => .fault .offsetBeyondBuffer
    | some frame => .next ((s.emit (.transportWrite frame)).ret .unit)

end Sys2Proof.Machine
end

