-- ==== Sys2Proof/Machine/Channel.lean ====
section
/-! DEFINITION. The MessageChannel commands: the three senders and inbound reassembly (spec/41_channel.md R96 to
R103). -/

namespace Sys2Proof.Machine

/-- `SendString(T, N, s)` (41_channel.md R97): reset, set the type, add the string, send, reset; where the string does
not fit nothing is sent and the final reset is still done. -/
def State.sendString (s : State) (t : Byte) (str : List Byte) : State :=
  let s := (s.rewind .tx).setByte .tx 3 t
  let field := stringField str
  if s.tx.cursor + field.length > Config.capacity then (s.rewind .tx).raise .bufferOverflow
  else
    let s := s.append field
    ((s.emit (.transportWrite (s.bytes .tx 0 s.tx.cursor))).rewind .tx).ret .unit

/-- SENDFW (41_channel.md R97). -/
def execSendFw (str : List Byte) (s : State) : Outcome :=
  .next (s.sendString s.params.typeFwVersion str)

/-- SENDPV (41_channel.md R98). -/
def execSendPv (str : List Byte) (s : State) : Outcome :=
  .next (s.sendString s.params.typeProgVersion str)

/-- SENDLOG (41_channel.md R99). -/
def execSendLog (str : List Byte) (s : State) : Outcome :=
  .next (s.sendString s.params.typeLog str)

/-- RXBYTE in LENGTH (41_channel.md R100): 0 and lengths above 253 raise MalformedFrame and resume the hunt. -/
def State.rxLength (s : State) (b : Byte) : State :=
  if b = 0#8 ∨ b.toNat > Config.maxLen then { s with rxState := .hunt0 }.raise .malformedFrame
  else { s.setByte .rx 2 b with rxCount := 3, rxState := .body }.ret .pending

/-- RXBYTE in BODY (41_channel.md R100): store the byte at RxCount, and complete the frame at length + 3 bytes. -/
def State.rxBody (s : State) (b : Byte) : State :=
  let s := { s.setByte .rx s.rxCount b with rxCount := s.rxCount + 1 }
  if s.rxCount = (s.byte .rx 2).toNat + 3 then
    let s := { s.setCursor .rx Config.headerLen with rxState := .ready }
    s.ret (.complete (s.byte .rx 3))
  else s.ret .pending

/-- RXBYTE (41_channel.md R100). -/
def execRxByte (b : Byte) (s : State) : Outcome :=
  match s.rxState with
  | .hunt0 => .next ((if b = Config.sentinel then { s with rxState := .hunt1 } else s).ret .pending)
  | .hunt1 => .next ({ s with rxState := if b = Config.sentinel then .length else .hunt0 }.ret .pending)
  | .length => .next (s.rxLength b)
  | .body => if s.rxCount < Config.capacity then .next (s.rxBody b) else .fault .offsetBeyondBuffer
  | .ready => .next (s.raise .rxBusy)

end Sys2Proof.Machine
end

