-- ==== Sys2Proof/Machine/Sampler.lean ====
section
/-! DEFINITION. The PacketEncoder commands (spec/43_sampler.md R113 to R119). -/

namespace Sys2Proof.Machine

/-- `Elapsed(now, last)` (43_sampler.md R113): the difference modulo 2^32. -/
def elapsed (now last : Word) : Word := now - last

/-- A send is due (43_sampler.md R113). -/
def sendDue (now last : Word) : Bool := decide (Config.periodMs ≤ (elapsed now last).toNat)

/-- `ask Pins.readDigital(pin)` (00_scope.md R12). -/
def State.readPin (s : State) (pin : Fin 127) : Bool × State :=
  (s.env.nextPinRead.1, { s.emit (.readDigital pin) with env := s.env.nextPinRead.2 })

/-- Sample slots from number i on, ascending: a bound slot is read and contributes `sample XOR reversed` at its own
bit, an unbound one issues no read and contributes 0; the bits are combined with OR (43_sampler.md R114). -/
def State.sampleFrom (s : State) (i : Nat) : List Slot → Packet × State
  | [] => (0#64, s)
  | slot :: rest =>
    match slot.pin with
    | none => s.sampleFrom (i + 1) rest
    | some pin =>
      let r := s.readPin pin
      let q := r.2.sampleFrom (i + 1) rest
      ((BitVec.ofBool (r.1 ^^ slot.reversed)).zeroExtend 64 <<< i ||| q.1, q.2)

/-- The body of BUILD (43_sampler.md R114). -/
def State.buildPacket (s : State) : Packet × State :=
  s.sampleFrom 0 s.slots.toList

/-- The body of XMIT, ending with `v` on success (43_sampler.md R115): 8 bytes little-endian at PRIORITY to
BUS_ADDRESS; a failure is logged and raised, not retried. -/
def State.transmit (s : State) (p : Packet) (v : Value) : State :=
  let asked := s.emit (.busWritePacket s.params.busAddress (leBytes 8 p) 8 Config.priority)
  let s := { asked with env := s.env.nextBusWrite.2 }
  if asked.env.nextBusWrite.1 then s.ret v
  else (s.emit (.log .transmitFailure)).raise .transmitFailure

/-- BUILD (43_sampler.md R114). -/
def execBuild (s : State) : Outcome :=
  let r := s.buildPacket
  .next (r.2.ret (.packet r.1))

/-- XMIT (43_sampler.md R115). -/
def execXmit (packet : Packet) (s : State) : Outcome :=
  .next (s.transmit packet .unit)

/-- TICK (43_sampler.md R116): LastSentMs is set before the packet is built and sent. -/
def execTick (now : Word) (s : State) : Outcome :=
  .next (
    if sendDue now s.lastSentMs then
      let r := { s with lastSentMs := now }.buildPacket
      r.2.transmit r.1 .sent
    else s.ret .notSent)

end Sys2Proof.Machine
end

