-- ==== Sys2Proof/Machine/Table.lean ====
section
/-! DEFINITION. The InputBindingTable commands (spec/42_binding_table.md R104 to R112). -/

namespace Sys2Proof.Machine

/-- `Persist()` (42_binding_table.md R105): one write of the whole table image. The answer says whether it succeeded;
the region then holds the image, or after a failure the 16 bytes of the answer (20_memory.md R35, R36). -/
def State.persist (s : State) : Bool × State :=
  let image := tableImage s.params.layout s.slots
  let asked := s.emit (.storageWrite s.params.tableBase image)
  match s.env.nextStorageWrite with
  | (.ok, env) => (true, { asked with env := env, store := s.store.writeBytes s.params.tableBase image })
  | (.fail left, env) =>
    (false, { asked with env := env, store := s.store.writeBytes s.params.tableBase left.toList })

/-- The common part of BIND and RBIND (42_binding_table.md R107, R109, from "new <- ..."): nothing where the slot
already holds the value, else update, persist and configure; a failed persist keeps the update and skips the
configure call. -/
def State.bindSlot (s : State) (slot : Fin 16) (pin : Fin 127) (reversed : Bool) : State :=
  let new : Slot := ⟨some pin, reversed⟩
  if s.slots[slot] = new then s.ret .unit
  else
    let r := { s with slots := s.slots.set slot new }.persist
    if r.1 then (r.2.emit (.configureInput pin)).ret .unit else r.2.raise .persistenceFailure

/-- The pins of the bound slots, in ascending slot order (42_binding_table.md R106). -/
def boundPins (slots : Vector Slot 16) : List (Fin 127) :=
  slots.toList.filterMap (·.pin)

/-- INIT with the answer to its storage read (42_binding_table.md R106). -/
def State.loadTable (s : State) : State :=
  let slots := loadImage s.params.layout fun i => s.storeByte (s.params.tableBase + i.val)
  ({ s with slots := slots }.emitAll ((boundPins slots).map .configureInput)).ret .unit

/-- INIT (42_binding_table.md R106). -/
def execInit (s : State) : Outcome :=
  let r := s.env.nextStorageRead
  let s := { s.emit (.storageRead s.params.tableBase Config.numSlots) with env := r.2 }
  .next (if r.1 then s.loadTable else s.raise .persistenceFailure)

/-- BIND (42_binding_table.md R107): the operand checks in the order of the rule, then the binding. -/
def execBind (slot : Byte) (pin : Half) (rev : Byte) (s : State) : Outcome :=
  .next (
    if rev.toNat > 1 then s.raise .illegalCommand
    else
      match slotOperand slot with
      | none => s.raise .invalidIndex
      | some i =>
        match pinOperand pin with
        | none => s.raise .invalidPin
        | some n => s.bindSlot i n (rev == 1#8))

/-- CLEAR (42_binding_table.md R108). -/
def execClear (s : State) : Outcome :=
  let r := { s with slots := Vector.replicate 16 Slot.unbound }.persist
  .next (if r.1 then r.2.ret .unit else r.2.raise .persistenceFailure)

/-- RBIND (42_binding_table.md R109): pin code 0 raises InvalidPin, any other acts as BIND. -/
def execRbind (slot : Byte) (packed : Byte) (s : State) : Outcome :=
  .next (
    match slotOperand slot with
    | none => s.raise .invalidIndex
    | some i =>
      match unpackSlot s.params.layout packed with
      | ⟨none, _⟩ => s.raise .invalidPin
      | ⟨some n, rev⟩ => s.bindSlot i n rev)

end Sys2Proof.Machine
end

