-- ==== Sys2Proof/Machine/Dispatch.lean ====
section
/-! DEFINITION. One arm per command: the meaning it runs. -/

namespace Sys2Proof.Machine

/-- Run one command: the step relation of spec/00_scope.md R9, on the state without the command's bytes. -/
def exec (i : Instr) (s : State) : Host.Outcome State Fault Refusal :=
  match i with
  | .reset u => Sys2Proof.Machine.execReset u s
  | .setType u t => Sys2Proof.Machine.execSetType u t s
  | .getType u => Sys2Proof.Machine.execGetType u s
  | .getLength u => Sys2Proof.Machine.execGetLength u s
  | .addFixedB u v => Sys2Proof.Machine.execAddFixedB u v s
  | .addFixedH u v => Sys2Proof.Machine.execAddFixedH u v s
  | .addFixedW u v => Sys2Proof.Machine.execAddFixedW u v s
  | .getFixedB u => Sys2Proof.Machine.execGetFixedB u s
  | .getFixedH u => Sys2Proof.Machine.execGetFixedH u s
  | .getFixedW u => Sys2Proof.Machine.execGetFixedW u s
  | .addBytes u data => Sys2Proof.Machine.execAddBytes u data s
  | .getBytes u n => Sys2Proof.Machine.execGetBytes u n s
  | .addString u str => Sys2Proof.Machine.execAddString u str s
  | .getString u => Sys2Proof.Machine.execGetString u s
  | .send u => Sys2Proof.Machine.execSend u s
  | .sendFw str => Sys2Proof.Machine.execSendFw str s
  | .sendPv str => Sys2Proof.Machine.execSendPv str s
  | .sendLog str => Sys2Proof.Machine.execSendLog str s
  | .rxByte b => Sys2Proof.Machine.execRxByte b s
  | .init => Sys2Proof.Machine.execInit s
  | .bind slot pin rev => Sys2Proof.Machine.execBind slot pin rev s
  | .clear => Sys2Proof.Machine.execClear s
  | .rbind slot packed => Sys2Proof.Machine.execRbind slot packed s
  | .tick now => Sys2Proof.Machine.execTick now s
  | .build => Sys2Proof.Machine.execBuild s
  | .xmit packet => Sys2Proof.Machine.execXmit packet s

end Sys2Proof.Machine
end

