-- ==== Sys2Proof/Machine/Reserved.lean ====
section
/-! DEFINITION. The reserved opcodes, which are no rows of the opcode table (spec/30_encoding.md R69, R74). -/

namespace Sys2Proof.Machine

/-- A reserved opcode raises IllegalCommand and changes nothing (60_exceptions.md R126). -/
def execReserved (_op : Byte) (s : State) : Outcome :=
  .next (s.raise .illegalCommand)

end Sys2Proof.Machine
end

