-- ==== Sys2Proof/Machine/Step.lean ====
section
/-! DEFINITION. One step: take the next command off the host's command stream and run it. -/

namespace Sys2Proof.Machine

/-- One step. The block has no program counter (spec/10_state.md R27): the step decodes the first command of the
host's stream, takes its bytes off and runs it. A reserved opcode is a 1-byte command (30_encoding.md R69); a stream
that ends before a whole command is refused and no step happens (R70). -/
def step (s : State) : Host.Outcome State Fault Refusal :=
  match decode s.commands with
  | .command i rest => exec i { s with commands := rest }
  | .reserved op rest => execReserved op { s with commands := rest }
  | .incomplete offset => .refused (.incompleteCommand offset)

/-- The state with the command of a table word as the next one the host has issued, before any already waiting. -/
def State.withFetchWord (s : State) (nbits w : Nat) : State :=
  { s with commands := tableBytes nbits w ++ s.commands }

end Sys2Proof.Machine
end

