-- ==== Sys2Proof/Safety.lean ====
section
/-! DEFINITION. What a good state is, and the words statements about the machine are written in: frames, sequences of
commands, and the environment's coming answers. -/

namespace Sys2Proof

/-! ### Kinds of commands -/

/-- The mutating codec functions, with the codec they address (40_codec.md R77). -/
def Instr.mutates : Instr → Option CodecId
  | .setType u _ => some u
  | .addFixedB u _ => some u
  | .addFixedH u _ => some u
  | .addFixedW u _ => some u
  | .addBytes u _ => some u
  | .addString u _ => some u
  | .send u => some u
  | _ => none

/-- The append commands, with the codec they address (40_codec.md R83 to R91). -/
def Instr.appends : Instr → Option CodecId
  | .addFixedB u _ => some u
  | .addFixedH u _ => some u
  | .addFixedW u _ => some u
  | .addBytes u _ => some u
  | .addString u _ => some u
  | _ => none

/-- The commands that read at the cursor, with the codec they address (40_codec.md R86 to R92). -/
def Instr.readsFields : Instr → Option CodecId
  | .getFixedB u => some u
  | .getFixedH u => some u
  | .getFixedW u => some u
  | .getBytes u _ => some u
  | .getString u => some u
  | _ => none

/-- The senders of 41_channel.md R97 to R99. -/
def Instr.isSender : Instr → Bool
  | .sendFw _ => true
  | .sendPv _ => true
  | .sendLog _ => true
  | _ => false

/-- RXBYTE. -/
def Instr.isRxByte : Instr → Bool
  | .rxByte _ => true
  | _ => false

/-- BIND. -/
def Instr.isBind : Instr → Bool
  | .bind _ _ _ => true
  | _ => false

/-- RBIND. -/
def Instr.isRbind : Instr → Bool
  | .rbind _ _ => true
  | _ => false

/-- TICK. -/
def Instr.isTick : Instr → Bool
  | .tick _ => true
  | _ => false

/-- XMIT. -/
def Instr.isXmit : Instr → Bool
  | .xmit _ => true
  | _ => false

/-- The commands that may write `Slot` (42_binding_table.md R112). -/
def Instr.writesSlots (i : Instr) : Bool :=
  i == .init || i == .clear || i.isBind || i.isRbind

end Sys2Proof

namespace Sys2Proof.Machine

/-! ### The invariant of every reachable state -/

/-- The three byte memories have their canonical form: a buffer lists offsets 2..255 only (offsets 0 and 1 are never
written, 10_state.md R17; 256 and above do not exist, 20_memory.md R32), the storage region lists its 16 addresses
only (20_memory.md R31). -/
structure MemoriesCanonical (s : State) : Prop where
  tx : Memory.wf 2 256 s.tx.buf = true
  rx : Memory.wf 2 256 s.rx.buf = true
  store : Memory.wf s.params.tableBase (s.params.tableBase + 16) s.store = true

/-- The cursor invariant, 4 ≤ Cursor ≤ 256 for both codecs (10_state.md R18), with the range of RxCount (R20). -/
structure CursorsInRange (s : State) : Prop where
  txLow : 4 ≤ s.tx.cursor
  txHigh : s.tx.cursor ≤ 256
  rxLow : 4 ≤ s.rx.cursor
  rxHigh : s.rx.cursor ≤ 256
  count : s.rxCount ≤ 256

/-- The TX length invariant, LEN_TX = Cursor_TX - 3 (10_state.md R19). -/
def TxLengthHolds (s : State) : Prop := (s.byte .tx 2).toNat + 3 = s.tx.cursor

/-- The RX frame invariant (10_state.md R21), with where the RX cursor can be: at 4 until a frame is complete
(41_channel.md R100, "already 4"), and inside the frame from then on. -/
def RxFrameHolds (s : State) : Prop :=
  let len := (s.byte .rx 2).toNat
  match s.rxState with
  | .body => s.rx.cursor = 4 ∧ 1 ≤ len ∧ len ≤ 253 ∧ 3 ≤ s.rxCount ∧ s.rxCount < len + 3
  | .ready => s.rx.cursor ≤ len + 3 ∧ 1 ≤ len ∧ len ≤ 253 ∧ s.rxCount = len + 3
  | _ => s.rx.cursor = 4

/-- The three message types are pairwise distinct (41_channel.md R96, 92_eei_decisions.md D12). -/
def TypesDistinct (p : Params) : Prop :=
  p.typeFwVersion ≠ p.typeProgVersion ∧ p.typeFwVersion ≠ p.typeLog ∧ p.typeProgVersion ≠ p.typeLog

/-- What holds in every reachable state. -/
structure StateInv (s : State) : Prop where
  memories : MemoriesCanonical s
  cursors : CursorsInRange s
  txLength : TxLengthHolds s
  rxFrame : RxFrameHolds s
  types : TypesDistinct s.params

/-! ### Sequences of commands -/

/-- Run commands one after the other (20_memory.md R46), stopping at the first that has no next state. -/
def runAll : List Instr → State → Outcome
  | [], s => .next s
  | i :: is, s =>
    match exec i s with
    | .next n => runAll is n
    | .fault f => .fault f
    | .refused r => .refused r

/-! ### Frames -/

/-- Nothing but TX buffer bytes, `Cursor_TX` and the results may differ. -/
def OnlyTx (s n : State) : Prop := n = { s with tx := n.tx, results := n.results }

/-- The block state of 10_state.md R24, the parameters, the storage region and the command stream are the same: only
results, effects and the environment's answers may differ. -/
def OnlyOutputs (s n : State) : Prop :=
  n = { s with env := n.env, results := n.results, effects := n.effects }

/-- A successful append of `bs` to the TX message (20_memory.md R43; 40_codec.md R78, R83 to R91): the bytes stand at
the old cursor, the cursor has passed them, the length byte is the new cursor less 3, and every other byte, and
everything else, is as before. -/
structure Appended (s n : State) (bs : List Byte) : Prop where
  stored : n.bytes .tx s.tx.cursor bs.length = bs
  cursor : n.tx.cursor = s.tx.cursor + bs.length
  length : n.byte .tx 2 = BitVec.ofNat 8 (n.tx.cursor - 3)
  otherBytes : ∀ a, a ≠ 2 → a < s.tx.cursor ∨ s.tx.cursor + bs.length ≤ a → n.byte .tx a = s.byte .tx a
  rest : OnlyTx s n
  result : n.results = s.results ++ [.ok .unit]

/-- The storage region after a write of 16 bytes at TABLE_BASE, every other address as before (20_memory.md R35). -/
def StoreHolds (s n : State) (bs : List Byte) : Prop :=
  (List.range 16).map (fun k => n.storeByte (s.params.tableBase + k)) = bs ∧
    ∀ a, a < s.params.tableBase ∨ s.params.tableBase + 16 ≤ a → n.storeByte a = s.storeByte a

/-! ### Commands by what they name and raise -/

/-- The slot and value that a BIND or RBIND with valid operands names (42_binding_table.md R107, R109). -/
def bindTarget (layout : BindingByteLayout) : Instr → Option (Fin 16 × Slot)
  | .bind slot pin rev =>
    match slotOperand slot, pinOperand pin with
    | some i, some n => if rev.toNat ≤ 1 then some (i, ⟨some n, rev == 1#8⟩) else none
    | _, _ => none
  | .rbind slot packed =>
    match slotOperand slot, (unpackSlot layout packed).pin with
    | some i, some n => some (i, ⟨some n, (unpackSlot layout packed).reversed⟩)
    | _, _ => none
  | _ => none

/-- Which commands may report an error code: the "raised by" column of 60_exceptions.md R123, for listed commands. -/
def mayRaise (e : Err) (i : Instr) : Bool :=
  match e with
  | .bufferOverflow => i.appends == some .tx || i.isSender
  | .truncatedMessage => i == .getType .rx || i.readsFields.isSome
  | .invalidIndex => i.isBind || i.isRbind
  | .invalidPin => i.isBind || i.isRbind
  | .persistenceFailure => i.writesSlots
  | .transmitFailure => i.isXmit || i.isTick
  | .illegalCommand => i.mutates == some .rx || i.isBind
  | .malformedFrame => i.isRxByte
  | .rxBusy => i.isRxByte

/-- The errors that keep an earlier write on purpose (the list of 60_exceptions.md R120). -/
def keepsEarlierWrite (e : Err) (i : Instr) : Bool :=
  match e with
  | .malformedFrame => i.isRxByte
  | .bufferOverflow => i.isSender
  | .persistenceFailure => i.isBind || i.isRbind || i == .clear
  | .transmitFailure => i.isTick
  | _ => false

/-! ### The environment's coming answers -/

/-- The k-th coming answer to `Pins.readDigital` (00_scope.md R12): the k-th queued one, or a free one. -/
def Env.pinAnswer (e : Env) (k : Nat) : Bool :=
  if h : k < e.pinReads.length then e.pinReads[k] else Config.freePinRead (e.freeIndex + (k - e.pinReads.length))

/-- The environment after k more answers to `Pins.readDigital`. -/
def Env.afterPinReads (e : Env) (k : Nat) : Env :=
  { e with pinReads := e.pinReads.drop k, freeIndex := e.freeIndex + (k - e.pinReads.length) }

/-- How many bound slots have a number below i: how many pins BUILD reads before slot i (43_sampler.md R114). -/
def boundBelow (slots : Vector Slot 16) (i : Nat) : Nat :=
  ((slots.toList.take i).filterMap (·.pin)).length

/-- How many packets have been handed to the bus. -/
def State.packetsSent (s : State) : Nat :=
  s.effects.countP fun
    | .busWritePacket _ _ _ _ => true
    | _ => false

/-- How many storage writes have been issued. -/
def State.storageWrites (s : State) : Nat :=
  s.effects.countP fun
    | .storageWrite _ _ => true
    | _ => false

/-! ### Messages as sequences of fields (40_codec.md R95) -/

/-- A field of a message. -/
inductive Field where
  | fixedB (v : Byte)
  | fixedH (v : Half)
  | fixedW (v : Word)
  | string (str : List Byte)
deriving DecidableEq, Repr

/-- The command that appends the field to the TX message. -/
def Field.add : Field → Instr
  | .fixedB v => .addFixedB .tx v
  | .fixedH v => .addFixedH .tx v
  | .fixedW v => .addFixedW .tx v
  | .string str => .addString .tx str

/-- The command that reads the field from the RX message. -/
def Field.get : Field → Instr
  | .fixedB _ => .getFixedB .rx
  | .fixedH _ => .getFixedH .rx
  | .fixedW _ => .getFixedW .rx
  | .string _ => .getString .rx

/-- What reading the field back returns: a string as its first 255 bytes. -/
def Field.value : Field → Value
  | .fixedB v => .byte v
  | .fixedH v => .half v
  | .fixedW v => .word v
  | .string str => .bytes (str.take 255)

/-- The bytes the field takes (20_memory.md R42). -/
def Field.size : Field → Nat
  | .fixedB _ => 1
  | .fixedH _ => 2
  | .fixedW _ => 4
  | .string str => 1 + min str.length 255

end Sys2Proof.Machine
end

