-- ==== Sys2Proof/Certificates/Slice0/Obligations.lean ====
section
/-! DEFINITION. The statements for the provers. `s.answer r` is `s` with the result `r` reported; an equation
`exec i s = .next (...)` says that the command completes, and every field not named is as before. -/

open Sys2Proof Sys2Proof.Machine

/-! ### Reset -/

/-- R30, R140: the power-on values of every element of block state, and no effect. Bytes 3..255 are INIT_BUF. -/
def Obligations.PowerOnValues : Prop :=
  (∀ u, State.reset.byte u 0 = 0x24#8 ∧ State.reset.byte u 1 = 0x24#8 ∧ State.reset.byte u 2 = 1#8 ∧
      (State.reset.codec u).cursor = 4) ∧
    (∀ a, 3 ≤ a → a ≤ 255 →
      State.reset.byte .tx a = Config.initBufTx a ∧ State.reset.byte .rx a = Config.initBufRx a) ∧
    State.reset.rxState = .hunt0 ∧ State.reset.rxCount = 0 ∧
    (∀ i : Fin 16, State.reset.slots[i] = ⟨none, false⟩) ∧
    State.reset.lastSentMs = 0#32 ∧ State.reset.effects = []

/-- R140, R35: power-on from any state gives the block state of reset, emits nothing and keeps the storage region. -/
def Obligations.PowerOnKeepsStorage : Prop :=
  ∀ s : State,
    s.powerOn = { s with
      tx := ⟨[(2, 1#8)], 4⟩, rx := ⟨[(2, 1#8)], 4⟩, rxState := .hunt0, rxCount := 0
      slots := Vector.replicate 16 ⟨none, false⟩, lastSentMs := 0#32 } ∧
    (∀ a, s.powerOn.storeByte a = s.storeByte a)

/-- R17, R24: offsets 0 and 1 of both buffers read 0x24 in every state. That a write there leaves the state as it is
is the model's choice, deduced from "hardwired" and "no command writes" (log 8). -/
def Obligations.SentinelIsHardwired : Prop :=
  ∀ (s : State) (u : CodecId) (a : Nat), a < 2 →
    s.byte u a = 0x24#8 ∧ ∀ v, s.setByte u a v = s

/-- The invariant holds after reset (that the type constants are distinct rests on log 4). -/
def Obligations.ResetSatisfiesInvariant : Prop := StateInv State.reset

/-! ### Encoding -/

/-- Decoding the encoding of a well-formed command gives it back, with the bytes after it untouched. -/
def Obligations.DecodeOfEncode : Prop :=
  ∀ (i : Instr) (rest : List Byte), i.wf = true → decode (encode i ++ rest) = .command i rest

/-- Each byte sequence has one meaning: what decodes to a command is that command's encoding. -/
def Obligations.EncodeOfDecode : Prop :=
  ∀ (bs rest : List Byte) (i : Instr), decode bs = .command i rest → i.wf = true ∧ bs = encode i ++ rest

/-- R75: a codec row (bit 7 clear) matches its function for both codecs, any other row its own value; no two rows
match the same opcode byte. -/
def Obligations.OpcodeRowsDisjoint : Prop :=
  (∀ r ∈ opcodeTable, ∀ op : Byte,
    r.matches op = if r.pattern.getLsbD 7 then op == r.pattern else op &&& 0xBF#8 == r.pattern) ∧
  ∀ op : Byte, (opcodeTable.filter (·.matches op)).length ≤ 1

/-- R69: the reserved opcodes are exactly the listed ranges, and a step on one takes 1 byte, raises IllegalCommand and
changes nothing else. -/
def Obligations.ReservedOpcodesRaiseIllegalCommand : Prop :=
  ∀ (op : Byte) (rest : List Byte),
    (decode (op :: rest) = .reserved op rest ↔
      (op &&& 0xBF#8 = 0x07#8 ∨ op &&& 0xBF#8 = 0x0B#8 ∨ (0x11 ≤ op.toNat ∧ op.toNat ≤ 0x3F) ∨
        (0x51 ≤ op.toNat ∧ op.toNat ≤ 0x7F) ∨ (0x84 ≤ op.toNat ∧ op.toNat ≤ 0x8F) ∨
        (0x94 ≤ op.toNat ∧ op.toNat ≤ 0x9F) ∨ 0xA3 ≤ op.toNat)) ∧
    ∀ s : State, s.commands = op :: rest → decode s.commands = .reserved op rest →
      step s = .next ({ s with commands := rest }.answer (.err .illegalCommand))

/-- R70: a command cut short is refused at the boundary, with the offset where the bytes ended, and no step happens.
That the offset counts from the first byte of the command is the model's choice (log 12). -/
def Obligations.TruncatedCommandRefused : Prop :=
  ∀ (i : Instr) (s : State) (missing : List Byte), i.wf = true → missing ≠ [] →
    s.commands ++ missing = encode i → step s = .refused (.incompleteCommand s.commands.length)

/-- R68: a decoded command takes exactly `Length(b)` bytes of the stream. -/
def Obligations.DecodeTakesCommandLength : Prop :=
  ∀ (bs rest : List Byte) (i : Instr), decode bs = .command i rest →
    ∃ n, commandLength bs = some n ∧ n ≤ bs.length ∧ rest = bs.drop n

/-- Words written out from the encodings of R63, R65 and R66 decode to the commands they stand for. -/
def Obligations.WrittenWordsDecode : Prop :=
  decode [0x40] = .command (.reset .rx) [] ∧
    decode [0x06, 0xD2, 0x04, 0x00, 0x00] = .command (.addFixedW .tx 1234#32) [] ∧
    decode [0x0E, 0x02, 0x00, 0x68, 0x69] = .command (.addString .tx [0x68, 0x69]) [] ∧
    decode [0x83, 0x24] = .command (.rxByte 0x24) [] ∧
    decode [0x91, 0x00, 0x03, 0x00, 0x01] = .command (.bind 0 3 1) [] ∧
    decode [0xA2, 0x01, 0x80, 0, 0, 0, 0, 0, 0] = .command (.xmit 0x8001) []

/-- A step runs the decoded command on the state without the command's bytes, and nothing else. The stream of command
bytes in the state is the model's choice (log 1). -/
def Obligations.StepRunsDecodedCommand : Prop :=
  ∀ (s : State) (i : Instr) (rest : List Byte), decode s.commands = .command i rest →
    step s = exec i { s with commands := rest }

/-! ### Codec header commands -/

/-- R79: RESET sets the cursor to 4 and the length byte to 1, and on RX also rearms reassembly; no other byte and
nothing else changes. -/
def Obligations.ResetRewindsCodec : Prop :=
  encode (.reset .tx) = [0x00] ∧ encode (.reset .rx) = [0x40] ∧ ∀ s : State,
    (∃ n, exec (.reset .tx) s = .next n ∧ n.tx.cursor = 4 ∧ n.byte .tx 2 = 1#8 ∧
      (∀ a, a ≠ 2 → n.byte .tx a = s.byte .tx a) ∧ OnlyTx s n ∧ n.results = s.results ++ [.ok .unit]) ∧
    (∃ n, exec (.reset .rx) s = .next n ∧ n.rx.cursor = 4 ∧ n.byte .rx 2 = 1#8 ∧
      n.rxState = .hunt0 ∧ n.rxCount = 0 ∧ (∀ a, a ≠ 2 → n.byte .rx a = s.byte .rx a) ∧
      n = { s with rx := n.rx, rxState := .hunt0, rxCount := 0, results := s.results ++ [.ok .unit] })

/-- R80: SETTYPE TX writes byte 3 and leaves the cursor and every other byte alone; on RX it raises
IllegalCommand. -/
def Obligations.SetTypeWritesTypeByte : Prop :=
  ∀ (s : State) (t : Byte),
    encode (.setType .tx t) = [0x01, t] ∧ encode (.setType .rx t) = [0x41, t] ∧
    (∃ n, exec (.setType .tx t) s = .next n ∧ n.byte .tx 3 = t ∧
      (∀ a, a ≠ 3 → n.byte .tx a = s.byte .tx a) ∧ n.tx.cursor = s.tx.cursor ∧ OnlyTx s n ∧
      n.results = s.results ++ [.ok .unit]) ∧
    exec (.setType .rx t) s = .next (s.answer (.err .illegalCommand))

/-- R77: the mutating functions addressed to RX raise IllegalCommand and change nothing. -/
def Obligations.RxRefusesMutatingFunctions : Prop :=
  ∀ (s : State) (i : Instr), i.mutates = some .rx → exec i s = .next (s.answer (.err .illegalCommand))

/-- R81: GETTYPE returns byte 3, but raises TruncatedMessage on RX outside READY; no state changes. -/
def Obligations.GetTypeReturnsTypeByte : Prop :=
  encode (.getType .tx) = [0x02] ∧ encode (.getType .rx) = [0x42] ∧ ∀ s : State,
    exec (.getType .tx) s = .next (s.answer (.ok (.byte (s.byte .tx 3)))) ∧
    (s.rxState = .ready → exec (.getType .rx) s = .next (s.answer (.ok (.byte (s.byte .rx 3))))) ∧
    (s.rxState ≠ .ready → exec (.getType .rx) s = .next (s.answer (.err .truncatedMessage)))

/-- R82: GETLENGTH returns byte 2; no state changes. -/
def Obligations.GetLengthReturnsLengthByte : Prop :=
  ∀ (s : State) (u : CodecId), exec (.getLength u) s = .next (s.answer (.ok (.byte (s.byte u 2))))

/-! ### Appends -/

/-- R83, R84, R85, R37: an ADDFIXED that fits appends its value little-endian. -/
def Obligations.AddFixedAppendsLittleEndian : Prop :=
  ∀ s : State, CursorsInRange s →
    (∀ v : Byte, s.tx.cursor + 1 ≤ 256 →
      ∃ n, exec (.addFixedB .tx v) s = .next n ∧ Appended s n [v]) ∧
    (∀ v : Half, s.tx.cursor + 2 ≤ 256 →
      ∃ n, exec (.addFixedH .tx v) s = .next n ∧ Appended s n [v.extractLsb' 0 8, v.extractLsb' 8 8]) ∧
    (∀ v : Word, s.tx.cursor + 4 ≤ 256 →
      ∃ n, exec (.addFixedW .tx v) s = .next n ∧
        Appended s n [v.extractLsb' 0 8, v.extractLsb' 8 8, v.extractLsb' 16 8, v.extractLsb' 24 8])

/-- R89: an ADDBYTES that fits appends its data with no prefix. -/
def Obligations.AddBytesAppendsData : Prop :=
  ∀ (s : State) (data : List Byte), CursorsInRange s → s.tx.cursor + data.length ≤ 256 →
    ∃ n, exec (.addBytes .tx data) s = .next n ∧ Appended s n data

/-- R91: an ADDSTRING that fits appends the length byte and the first 255 bytes of the string. -/
def Obligations.AddStringAppendsPrefixAndBody : Prop :=
  ∀ (s : State) (str : List Byte), CursorsInRange s → s.tx.cursor + 1 + min str.length 255 ≤ 256 →
    ∃ n, exec (.addString .tx str) s = .next n ∧
      Appended s n (BitVec.ofNat 8 (min str.length 255) :: str.take 255)

/-- R124 (the appends): where the bytes would pass 256, BufferOverflow and no change. -/
def Obligations.AppendOverflowChangesNothing : Prop :=
  ∀ s : State,
    (∀ v, s.tx.cursor + 1 > 256 → exec (.addFixedB .tx v) s = .next (s.answer (.err .bufferOverflow))) ∧
    (∀ v, s.tx.cursor + 2 > 256 → exec (.addFixedH .tx v) s = .next (s.answer (.err .bufferOverflow))) ∧
    (∀ v, s.tx.cursor + 4 > 256 → exec (.addFixedW .tx v) s = .next (s.answer (.err .bufferOverflow))) ∧
    (∀ data : List Byte, s.tx.cursor + data.length > 256 →
      exec (.addBytes .tx data) s = .next (s.answer (.err .bufferOverflow))) ∧
    (∀ str : List Byte, s.tx.cursor + (1 + min str.length 255) > 256 →
      exec (.addString .tx str) s = .next (s.answer (.err .bufferOverflow)))

/-! ### Reads -/

/-- R86, R87, R88, R37: a GETFIXED with enough bytes left returns the little-endian value and moves only the cursor.
The bound on the length byte holds in every reachable state (R21). -/
def Obligations.GetFixedReturnsLittleEndian : Prop :=
  ∀ s : State, s.rxState = .ready → (s.byte .rx 2).toNat ≤ 253 →
    let c := s.rx.cursor
    (c + 1 ≤ (s.byte .rx 2).toNat + 3 →
      exec (.getFixedB .rx) s =
        .next ({ s with rx := ⟨s.rx.buf, c + 1⟩ }.answer (.ok (.byte (s.byte .rx c))))) ∧
    (c + 2 ≤ (s.byte .rx 2).toNat + 3 →
      exec (.getFixedH .rx) s =
        .next ({ s with rx := ⟨s.rx.buf, c + 2⟩ }.answer (.ok (.half (s.byte .rx (c + 1) ++ s.byte .rx c))))) ∧
    (c + 4 ≤ (s.byte .rx 2).toNat + 3 →
      exec (.getFixedW .rx) s =
        .next ({ s with rx := ⟨s.rx.buf, c + 4⟩ }.answer
          (.ok (.word (s.byte .rx (c + 3) ++ s.byte .rx (c + 2) ++ s.byte .rx (c + 1) ++ s.byte .rx c)))))

/-- R90: a GETBYTES with enough bytes left returns them and moves only the cursor; n = 0 always succeeds, on either
codec and in every RxState. -/
def Obligations.GetBytesReturnsBytes : Prop :=
  ∀ s : State,
    (∀ n : Byte, s.rxState = .ready → (s.byte .rx 2).toNat ≤ 253 →
      s.rx.cursor + n.toNat ≤ (s.byte .rx 2).toNat + 3 →
      exec (.getBytes .rx n) s =
        .next ({ s with rx := ⟨s.rx.buf, s.rx.cursor + n.toNat⟩ }.answer
          (.ok (.bytes ((List.range n.toNat).map fun k => s.byte .rx (s.rx.cursor + k)))))) ∧
    (∀ u, exec (.getBytes u 0#8) s = .next (s.answer (.ok (.bytes []))))

/-- R92: a GETSTRING whose length byte and body are all there returns the body and passes both. -/
def Obligations.GetStringReturnsBody : Prop :=
  ∀ s : State, s.rxState = .ready → (s.byte .rx 2).toNat ≤ 253 →
    let c := s.rx.cursor
    let m := (s.byte .rx c).toNat
    c + (1 + m) ≤ (s.byte .rx 2).toNat + 3 →
      exec (.getString .rx) s =
        .next ({ s with rx := ⟨s.rx.buf, c + (1 + m)⟩ }.answer
          (.ok (.bytes ((List.range m).map fun k => s.byte .rx (c + 1 + k)))))

/-- R125 with R76: a read of more bytes than remain raises TruncatedMessage and changes nothing: k bytes for a fixed
read, n for GETBYTES, the length byte and then the body for GETSTRING. -/
def Obligations.ShortReadsAreTruncated : Prop :=
  ∀ s : State, s.rxState = .ready →
    let left := (s.byte .rx 2).toNat + 3 - s.rx.cursor
    (left < 1 → exec (.getFixedB .rx) s = .next (s.answer (.err .truncatedMessage))) ∧
    (left < 2 → exec (.getFixedH .rx) s = .next (s.answer (.err .truncatedMessage))) ∧
    (left < 4 → exec (.getFixedW .rx) s = .next (s.answer (.err .truncatedMessage))) ∧
    (∀ n : Byte, left < n.toNat → exec (.getBytes .rx n) s = .next (s.answer (.err .truncatedMessage))) ∧
    (left < 1 → exec (.getString .rx) s = .next (s.answer (.err .truncatedMessage))) ∧
    ((s.byte .rx 2).toNat ≤ 253 → 1 ≤ left → left < 1 + (s.byte .rx s.rx.cursor).toNat →
      exec (.getString .rx) s = .next (s.answer (.err .truncatedMessage)))

/-- R76, D8: TX, and RX outside READY, have no received frame, so every read of one or more bytes raises
TruncatedMessage and changes nothing. -/
def Obligations.NoFrameNoRead : Prop :=
  ∀ (s : State) (u : CodecId), (u = .tx ∨ s.rxState ≠ .ready) →
    exec (.getFixedB u) s = .next (s.answer (.err .truncatedMessage)) ∧
    exec (.getFixedH u) s = .next (s.answer (.err .truncatedMessage)) ∧
    exec (.getFixedW u) s = .next (s.answer (.err .truncatedMessage)) ∧
    exec (.getString u) s = .next (s.answer (.err .truncatedMessage)) ∧
    ∀ n : Byte, n ≠ 0#8 → exec (.getBytes u n) s = .next (s.answer (.err .truncatedMessage))

/-! ### Send and senders -/

/-- R93: SEND TX hands L + 3 bytes from offset 0 to the transport, L being the length byte, and changes no state; on RX
it raises IllegalCommand. The bound on L holds in every reachable state (R19). -/
def Obligations.SendWritesFrame : Prop :=
  encode (.send .tx) = [0x10] ∧ encode (.send .rx) = [0x50] ∧
  (∀ s : State, (s.byte .tx 2).toNat ≤ 253 →
    exec (.send .tx) s =
      .next ({ s with effects := s.effects ++
        [Effect.transportWrite ((List.range ((s.byte .tx 2).toNat + 3)).map (s.byte .tx))] }.answer (.ok .unit))) ∧
  ∀ s : State, exec (.send .rx) s = .next (s.answer (.err .illegalCommand))

/-- R97, R98, R99: a sender whose string has at most 251 bytes sends one frame with its own type constant and leaves
TX rewound, with the type and string bytes in the buffer. -/
def Obligations.SendersSendOneFrame : Prop :=
  ∀ (s : State) (str : List Byte), str.length ≤ 251 →
    ∀ (i : Instr) (t : Byte),
      (i = .sendFw str ∧ t = s.params.typeFwVersion) ∨ (i = .sendPv str ∧ t = s.params.typeProgVersion) ∨
        (i = .sendLog str ∧ t = s.params.typeLog) →
      ∃ n, exec i s = .next n ∧
        n.effects = s.effects ++ [Effect.transportWrite
          ([0x24, 0x24, BitVec.ofNat 8 (str.length + 2), t, BitVec.ofNat 8 str.length] ++ str)] ∧
        n.tx.cursor = 4 ∧ n.byte .tx 2 = 1#8 ∧ n.byte .tx 3 = t ∧
        n.byte .tx 4 = BitVec.ofNat 8 str.length ∧ n.bytes .tx 5 str.length = str ∧
        (∀ a, 5 + str.length ≤ a → n.byte .tx a = s.byte .tx a) ∧
        n = { s with tx := n.tx, effects := n.effects, results := s.results ++ [.ok .unit] }

/-- R97, R98, R99: a sender whose string has more than 251 bytes sends nothing, raises BufferOverflow and still does
the final reset; the type byte is written. -/
def Obligations.SenderOverflowSendsNothing : Prop :=
  ∀ (s : State) (str : List Byte), 252 ≤ str.length →
    ∀ (i : Instr) (t : Byte),
      (i = .sendFw str ∧ t = s.params.typeFwVersion) ∨ (i = .sendPv str ∧ t = s.params.typeProgVersion) ∨
        (i = .sendLog str ∧ t = s.params.typeLog) →
      ∃ n, exec i s = .next n ∧ n.tx.cursor = 4 ∧ n.byte .tx 2 = 1#8 ∧ n.byte .tx 3 = t ∧
        (∀ a, 4 ≤ a → n.byte .tx a = s.byte .tx a) ∧
        n = { s with tx := n.tx, results := s.results ++ [.err .bufferOverflow] }

/-! ### Inbound reassembly -/

/-- R100, the cases HUNT0, HUNT1 and READY, which touch no buffer byte. -/
def Obligations.RxByteHuntsAndRefuses : Prop :=
  ∀ (s : State) (b : Byte),
    (s.rxState = .hunt0 → exec (.rxByte b) s =
      .next ({ s with rxState := if b = 0x24#8 then .hunt1 else .hunt0 }.answer (.ok .pending))) ∧
    (s.rxState = .hunt1 → exec (.rxByte b) s =
      .next ({ s with rxState := if b = 0x24#8 then .length else .hunt0 }.answer (.ok .pending))) ∧
    (s.rxState = .ready → exec (.rxByte b) s = .next (s.answer (.err .rxBusy)))

/-- R100, the case LENGTH: a length of 1..253 is stored and starts the body; any other raises MalformedFrame. -/
def Obligations.RxByteTakesLength : Prop :=
  ∀ (s : State) (b : Byte), s.rxState = .length →
    (b = 0#8 ∨ 253 < b.toNat →
      exec (.rxByte b) s = .next ({ s with rxState := .hunt0 }.answer (.err .malformedFrame))) ∧
    (1 ≤ b.toNat → b.toNat ≤ 253 →
      ∃ n, exec (.rxByte b) s = .next n ∧ n.byte .rx 2 = b ∧ (∀ a, a ≠ 2 → n.byte .rx a = s.byte .rx a) ∧
        n = { s with rx := ⟨n.rx.buf, s.rx.cursor⟩, rxState := .body, rxCount := 3
                     results := s.results ++ [.ok .pending] })

/-- R100, the case BODY: the byte is stored at RxCount; at length + 3 bytes the frame is complete. -/
def Obligations.RxByteStoresBody : Prop :=
  ∀ (s : State) (b : Byte), s.rxState = .body → 3 ≤ s.rxCount → s.rxCount ≤ 255 →
    ∃ n, exec (.rxByte b) s = .next n ∧ n.byte .rx s.rxCount = b ∧
      (∀ a, a ≠ s.rxCount → n.byte .rx a = s.byte .rx a) ∧ n.rxCount = s.rxCount + 1 ∧
      (s.rxCount + 1 = (s.byte .rx 2).toNat + 3 →
        n.rxState = .ready ∧ n.rx.cursor = 4 ∧ n.results = s.results ++ [.ok (.complete (n.byte .rx 3))]) ∧
      (s.rxCount + 1 ≠ (s.byte .rx 2).toNat + 3 →
        n.rxState = .body ∧ n.rx.cursor = s.rx.cursor ∧ n.results = s.results ++ [.ok .pending]) ∧
      n = { s with rx := n.rx, rxState := n.rxState, rxCount := n.rxCount, results := n.results }

/-! ### Binding table -/

/-- R57, R58: the bits of a binding byte under both layouts, that packing and unpacking are inverse, and that the
default layout is PIN_LOW. -/
def Obligations.BindingByteBits : Prop :=
  State.reset.params.layout = .pinLow ∧
  (∀ (p : Option (Fin 127)) (r : Bool),
    let code : Nat := match p with | none => 0 | some n => n.val + 1
    (packSlot .pinLow ⟨p, r⟩).toNat = (if r then 128 else 0) + code ∧
    (packSlot .pinHigh ⟨p, r⟩).toNat = 2 * code + (if r then 1 else 0)) ∧
  (∀ layout (v : Slot), unpackSlot layout (packSlot layout v) = v) ∧
  (∀ layout (b : Byte), packSlot layout (unpackSlot layout b) = b)

/-- R106: INIT loads slot i from byte TABLE_BASE + i and configures the bound pins in slot order; a failed read leaves
everything but the effect. -/
def Obligations.InitLoadsTable : Prop :=
  encode .init = [0x90] ∧ ∀ s : State,
    let read := s.env.nextStorageRead
    (read.1 = false → exec .init s =
      .next ({ s with env := read.2, effects := s.effects ++ [Effect.storageRead s.params.tableBase 16] }.answer
        (.err .persistenceFailure))) ∧
    (read.1 = true → ∃ n, exec .init s = .next n ∧
      (∀ i : Fin 16, n.slots[i] = unpackSlot s.params.layout (s.storeByte (s.params.tableBase + i.val))) ∧
      n.effects = s.effects ++ (Effect.storageRead s.params.tableBase 16 ::
        (n.slots.toList.filterMap (·.pin)).map .configureInput) ∧
      n = { s with slots := n.slots, env := read.2, effects := n.effects
                   results := s.results ++ [.ok .unit] })

/-- R107, R105: a BIND with valid operands that changes its slot: the slot is set, the whole image is written, and
after a successful write the pin is configured; after a failed one the update stays, the region holds the bytes the
failed write left, and PersistenceFailure is raised. -/
def Obligations.BindUpdatesPersistsConfigures : Prop :=
  ∀ (s : State) (slot : Fin 16) (pin : Fin 127) (rev : Bool), s.slots[slot] ≠ ⟨some pin, rev⟩ →
    let slots := s.slots.set slot ⟨some pin, rev⟩
    let image := slots.toList.map (packSlot s.params.layout)
    let write := s.env.nextStorageWrite
    ∃ n, exec (.bind (BitVec.ofNat 8 slot.val) (BitVec.ofNat 16 pin.val) (if rev then 1 else 0)) s = .next n ∧
      (write.1 = .ok → StoreHolds s n image ∧ n.results = s.results ++ [.ok .unit] ∧
        n.effects = s.effects ++ [.storageWrite s.params.tableBase image, .configureInput pin]) ∧
      (∀ left, write.1 = .fail left → StoreHolds s n left.toList ∧
        n.results = s.results ++ [.err .persistenceFailure] ∧
        n.effects = s.effects ++ [.storageWrite s.params.tableBase image]) ∧
      n = { s with slots := slots, store := n.store, env := write.2, effects := n.effects, results := n.results }

/-- R107 (write suppression): a BIND of what the slot already holds completes with no effect at all. -/
def Obligations.BindOfHeldValueIsNoOp : Prop :=
  ∀ (s : State) (slot : Fin 16) (pin : Fin 127) (rev : Bool), s.slots[slot] = ⟨some pin, rev⟩ →
    exec (.bind (BitVec.ofNat 8 slot.val) (BitVec.ofNat 16 pin.val) (if rev then 1 else 0)) s =
      .next (s.answer (.ok .unit))

/-- R107, R127, R132: BIND with an operand out of range raises the first error that applies, in the order rev, slot,
pin, and changes nothing. -/
def Obligations.BindRejectsBadOperands : Prop :=
  ∀ (s : State) (slot : Byte) (pin : Half) (rev : Byte),
    (1 < rev.toNat → exec (.bind slot pin rev) s = .next (s.answer (.err .illegalCommand))) ∧
    (rev.toNat ≤ 1 → 15 < slot.toNat → exec (.bind slot pin rev) s = .next (s.answer (.err .invalidIndex))) ∧
    (rev.toNat ≤ 1 → slot.toNat ≤ 15 → 126 < pin.toNat →
      exec (.bind slot pin rev) s = .next (s.answer (.err .invalidPin)))

/-- R108, R105: CLEAR unbinds every slot and writes 16 zero bytes, whether or not the table was clear; a failed write
keeps the cleared table and raises PersistenceFailure. -/
def Obligations.ClearUnbindsAndPersists : Prop :=
  encode .clear = [0x92] ∧ ∀ s : State,
    let write := s.env.nextStorageWrite
    ∃ n, exec .clear s = .next n ∧
      (∀ i : Fin 16, n.slots[i] = ⟨none, false⟩) ∧
      n.effects = s.effects ++ [.storageWrite s.params.tableBase (List.replicate 16 0#8)] ∧
      (write.1 = .ok → StoreHolds s n (List.replicate 16 0#8) ∧ n.results = s.results ++ [.ok .unit]) ∧
      (∀ left, write.1 = .fail left → StoreHolds s n left.toList ∧
        n.results = s.results ++ [.err .persistenceFailure]) ∧
      n = { s with slots := n.slots, store := n.store, env := write.2, effects := n.effects, results := n.results }

/-- R109: RBIND raises InvalidIndex, then InvalidPin for pin code 0, and otherwise completes exactly as the BIND of
the unpacked pair. -/
def Obligations.RbindActsAsBind : Prop :=
  ∀ (s : State) (slot packed : Byte),
    encode (.rbind slot packed) = [0x93, slot, packed] ∧
    (15 < slot.toNat → exec (.rbind slot packed) s = .next (s.answer (.err .invalidIndex))) ∧
    (slot.toNat ≤ 15 → (unpackSlot s.params.layout packed).pin = none →
      exec (.rbind slot packed) s = .next (s.answer (.err .invalidPin))) ∧
    (∀ (pin : Fin 127) (rev : Bool), slot.toNat ≤ 15 → unpackSlot s.params.layout packed = ⟨some pin, rev⟩ →
      ∃ n, exec (.rbind slot packed) s = .next n ∧
        exec (.bind slot (BitVec.ofNat 16 pin.val) (if rev then 1 else 0)) s = .next n)

/-- R110: of two commands, BIND or RBIND, that name the same slot, pin and reversed value and both succeed, the second
has no effect at all, and the two perform one storage write if the slot held another value before, else none. -/
def Obligations.SecondBindWritesNothing : Prop :=
  ∀ (s n m : State) (i j : Instr) (target : Fin 16 × Slot),
    bindTarget s.params.layout i = some target → bindTarget s.params.layout j = some target →
    exec i s = .next n → n.results = s.results ++ [.ok .unit] → exec j n = .next m →
    m = n.answer (.ok .unit) ∧ m.storageWrites = s.storageWrites + (if s.slots[target.1] = target.2 then 0 else 1)

/-- R111: `CLEAR; CLEAR` performs two writes of the same 16 zero bytes and leaves the table as one CLEAR does. -/
def Obligations.ClearTwiceWritesTwice : Prop :=
  ∀ s : State, ∃ n m, exec .clear s = .next n ∧ exec .clear n = .next m ∧ m.slots = n.slots ∧
    m.effects = s.effects ++ [.storageWrite s.params.tableBase (List.replicate 16 0#8),
      .storageWrite s.params.tableBase (List.replicate 16 0#8)]

/-- A table persisted by a BIND, RBIND or CLEAR that succeeded and issued its write is loaded back unchanged by a
successful INIT, under either layout. It rests on the model's choice that nothing but the block writes the storage
region (log 9, with decision D16). -/
def Obligations.PersistedTableReloads : Prop :=
  ∀ (s n m : State) (i : Instr), i.writesSlots = true → i ≠ .init → exec i s = .next n →
    n.results = s.results ++ [.ok .unit] → n.storageWrites = s.storageWrites + 1 →
    exec .init n = .next m → m.results = n.results ++ [.ok .unit] → m.slots = n.slots

/-! ### Sampler -/

/-- R114, R60: BUILD reads each bound slot's pin once, in ascending order, each read its own answer; bit i of the
packet is that answer XOR reversed, and every other bit is 0. The table is unchanged. -/
def Obligations.BuildPacksSamples : Prop :=
  encode .build = [0xA1] ∧ ∀ s : State, ∃ n P, exec .build s = .next n ∧
    (∀ i : Fin 16, P.getLsbD i.val =
      match s.slots[i].pin with
      | none => false
      | some _ => (s.env.pinAnswer (boundBelow s.slots i.val) ^^ s.slots[i].reversed)) ∧
    (∀ k, 16 ≤ k → P.getLsbD k = false) ∧
    n = { s with
      env := s.env.afterPinReads (boundBelow s.slots 16)
      effects := s.effects ++ (s.slots.toList.filterMap (·.pin)).map .readDigital
      results := s.results ++ [.ok (.packet P)] }

/-- R115, R38: XMIT hands the packet's 8 bytes, least significant first, to the bus at priority 2; a failure is logged
and raised. No block state changes. -/
def Obligations.XmitSendsEightBytes : Prop :=
  ∀ (s : State) (p : Packet),
    let write := s.env.nextBusWrite
    let bytes := [p.extractLsb' 0 8, p.extractLsb' 8 8, p.extractLsb' 16 8, p.extractLsb' 24 8,
      p.extractLsb' 32 8, p.extractLsb' 40 8, p.extractLsb' 48 8, p.extractLsb' 56 8]
    let call := Effect.busWritePacket s.params.busAddress bytes 8 2
    encode (.xmit p) = 0xA2 :: bytes ∧ exec (.xmit p) s = .next (
      if write.1 then { s with env := write.2, effects := s.effects ++ [call] }.answer (.ok .unit)
      else { s with env := write.2, effects := s.effects ++ [call, .log .transmitFailure] }.answer
        (.err .transmitFailure))

/-- R116, R113: TICK before 20 ms have passed (modulo 2^32) has no effect and returns NotSent. From 20 ms on it sets
LastSentMs to the operand, then builds as BUILD and sends as XMIT, returning Sent, or TransmitFailure with LastSentMs
kept. -/
def Obligations.TickFollowsPeriod : Prop :=
  ∀ (s : State) (now : Word),
    encode (.tick now) =
      [0xA0, now.extractLsb' 0 8, now.extractLsb' 8 8, now.extractLsb' 16 8, now.extractLsb' 24 8] ∧
    ((now - s.lastSentMs).toNat < 20 → exec (.tick now) s = .next (s.answer (.ok .notSent))) ∧
    (20 ≤ (now - s.lastSentMs).toNat →
      ∃ built P sent, exec .build { s with lastSentMs := now } = .next (built.answer (.ok (.packet P))) ∧
        built.results = s.results ∧ exec (.xmit P) built = .next sent ∧ sent.lastSentMs = now ∧
        ((sent.results = s.results ++ [.ok .unit] ∧
            exec (.tick now) s = .next { sent with results := s.results ++ [.ok .sent] }) ∨
          (sent.results = s.results ++ [.err .transmitFailure] ∧ exec (.tick now) s = .next sent)))

/-- R118: of TICKs 5 ms apart, from any start and any LastSentMs, those that send are exactly every fourth one from
the first that sends, across the wrap of the clock. -/
def Obligations.TickCadence : Prop :=
  ∀ (s : State) (a : Word) (k0 : Nat),
    let now (k : Nat) : Word := a + BitVec.ofNat 32 (5 * k)
    let Sends (k : Nat) : Prop := ∃ before after,
      runAll ((List.range k).map fun j => .tick (now j)) s = .next before ∧
        exec (.tick (now k)) before = .next after ∧ after.packetsSent = before.packetsSent + 1
    Sends k0 → (∀ k, k < k0 → ¬ Sends k) → ∀ k, Sends k ↔ ∃ j, k = k0 + 4 * j

/-- R150: where the host's TICKs are at most Δ ms apart, the first that sends after a send comes at least 20 ms and
less than 20 + Δ ms after it. `gaps` and then `g` are the times from each TICK to the next, from the last send on. -/
def Obligations.SendSpacing : Prop :=
  ∀ (s before after : State) (gaps : List Nat) (g Δ : Nat),
    (∀ d ∈ g :: gaps, d ≤ Δ) → 20 + Δ ≤ 2 ^ 32 →
    let now (k : Nat) : Word := s.lastSentMs + BitVec.ofNat 32 (gaps.take k).sum
    runAll ((List.range gaps.length).map fun k => .tick (now (k + 1))) s = .next before →
    before.packetsSent = s.packetsSent →
    exec (.tick (now gaps.length + BitVec.ofNat 32 g)) before = .next after →
    after.packetsSent = before.packetsSent + 1 →
    20 ≤ gaps.sum + g ∧ gaps.sum + g < 20 + Δ

/-! ### Whole-machine rules -/

/-- Every command answers with exactly one result, and the effects so far are never rewritten (R14, R46). -/
def Obligations.OneResultPerCommand : Prop :=
  ∀ (i : Instr) (s n : State), exec i s = .next n →
    ∃ r es, n.results = s.results ++ [r] ∧ n.effects = s.effects ++ es

/-- No command changes the parameters (R26) or the commands after it (R50). -/
def Obligations.ParametersAndCommandsUntouched : Prop :=
  ∀ (i : Instr) (s n : State), exec i s = .next n → n.params = s.params ∧ n.commands = s.commands

/-- The "written by" column of R24: what changes each element of the state, in every reachable state. -/
def Obligations.WritersOfEachElement : Prop :=
  ∀ (i : Instr) (s n : State), StateInv s → exec i s = .next n →
    (n.byte .tx 2 ≠ s.byte .tx 2 → i = .reset .tx ∨ i.appends = some .tx ∨ i.isSender = true) ∧
    (n.byte .tx 3 ≠ s.byte .tx 3 → (∃ t, i = .setType .tx t) ∨ i.isSender = true) ∧
    (∀ a, 4 ≤ a → n.byte .tx a ≠ s.byte .tx a → i.appends = some .tx ∨ i.isSender = true) ∧
    (n.tx.cursor ≠ s.tx.cursor → i = .reset .tx ∨ i.appends = some .tx ∨ i.isSender = true) ∧
    (n.byte .rx 2 ≠ s.byte .rx 2 → i = .reset .rx ∨ i.isRxByte = true) ∧
    (∀ a, 3 ≤ a → n.byte .rx a ≠ s.byte .rx a → i.isRxByte = true) ∧
    (n.rx.cursor ≠ s.rx.cursor → i = .reset .rx ∨ i.readsFields = some .rx) ∧
    (n.rxState ≠ s.rxState ∨ n.rxCount ≠ s.rxCount → i = .reset .rx ∨ i.isRxByte = true) ∧
    (n.slots ≠ s.slots → i.writesSlots = true) ∧
    (n.lastSentMs ≠ s.lastSentMs → i.isTick = true)

/-- R120: errors are precise. Where a command reports an error that R120 does not list as keeping an earlier write,
only outputs and the environment's answers differ from before. -/
def Obligations.ErrorsArePrecise : Prop :=
  ∀ (i : Instr) (s n : State) (e : Err), exec i s = .next n → n.results = s.results ++ [.err e] →
    keepsEarlierWrite e i = false → OnlyOutputs s n

/-- The "raised by" column of R123: a command reports an error code only if the table lists it for that code. -/
def Obligations.ErrorsComeFromTheirCommands : Prop :=
  ∀ (i : Instr) (s n : State) (e : Err), exec i s = .next n → n.results = s.results ++ [.err e] →
    mayRaise e i = true

/-- R14, R121: in every state that meets the invariant every command completes; none stops the block. -/
def Obligations.EveryCommandCompletes : Prop :=
  ∀ (i : Instr) (s : State), StateInv s → ∃ n, exec i s = .next n

/-- R17, R18, R19, R21: the invariant is kept by every step, from every state that meets it. -/
def Obligations.StepKeepsInvariant : Prop :=
  ∀ s n : State, StateInv s → step s = .next n → StateInv n

/-- R95: a message of ADDFIXED and ADDSTRING fields that fits, sent and delivered byte by byte to RX in HUNT0, is read
back field by field. -/
def Obligations.MessageRoundTrip : Prop :=
  ∀ (s : State) (t : Byte) (fields : List Field), s.rxState = .hunt0 → (fields.map Field.size).sum ≤ 252 →
    ∃ built frame received len done,
      runAll (.reset .tx :: .setType .tx t :: fields.map Field.add ++ [.send .tx]) s = .next built ∧
      built.effects = s.effects ++ [.transportWrite frame] ∧
      runAll (frame.map .rxByte) built = .next received ∧
      received.rxState = .ready ∧
      received.results = built.results ++ List.replicate (frame.length - 1) (.ok .pending) ++
        [.ok (.complete t)] ∧
      runAll ([.getType .rx, .getLength .rx, .getLength .tx] ++ fields.map Field.get) received = .next done ∧
      done.results = received.results ++ [.ok (.byte t), .ok (.byte len), .ok (.byte len)] ++
        fields.map (fun f => .ok f.value) ∧
      done.remaining .rx = 0
end

