-- ==== Sys2Proof/Laws/Bytes.lean ====
section
/-! SUPPORT. Little-endian bytes and values (spec/20_memory.md R37). -/

namespace Sys2Proof

@[simp] theorem leBytes_length {w : Nat} (n : Nat) (v : BitVec w) : (leBytes n v).length = n := by
  simp [leBytes]

/-- A byte below a bit vector adds `256 *` to it. -/
theorem toNat_append_byte {n : Nat} (x : BitVec n) (a : Byte) : (x ++ a).toNat = 256 * x.toNat + a.toNat := by
  rw [BitVec.toNat_append, ← Nat.shiftLeft_add_eq_or_of_lt a.isLt, Nat.shiftLeft_eq]
  omega

/-- The value of one byte. -/
theorem leValue_one (a : Byte) : BitVec.ofNat 8 (leValue [a]) = a := by simp [leValue]

/-- The value of two bytes, the first the least significant. -/
theorem leValue_two (a b : Byte) : BitVec.ofNat 16 (leValue [a, b]) = b ++ a := by
  apply BitVec.eq_of_toNat_eq
  have := a.isLt
  have := b.isLt
  simp only [leValue, BitVec.toNat_ofNat, toNat_append_byte]
  omega

/-- The value of four bytes, the first the least significant. -/
theorem leValue_four (a b c d : Byte) : BitVec.ofNat 32 (leValue [a, b, c, d]) = d ++ c ++ b ++ a := by
  apply BitVec.eq_of_toNat_eq
  have := a.isLt
  have := b.isLt
  have := c.isLt
  have := d.isLt
  simp only [leValue, BitVec.toNat_ofNat, toNat_append_byte]
  omega

/-- The two bytes of a half, put together again. -/
theorem append_extract_two (v : Half) : v.extractLsb' 8 8 ++ v.extractLsb' 0 8 = v := by
  apply BitVec.eq_of_toNat_eq
  have := v.isLt
  simp only [toNat_append_byte, BitVec.extractLsb'_toNat, Nat.shiftRight_eq_div_pow]
  omega

/-- The four bytes of a word, put together again. -/
theorem append_extract_four (v : Word) :
    v.extractLsb' 24 8 ++ v.extractLsb' 16 8 ++ v.extractLsb' 8 8 ++ v.extractLsb' 0 8 = v := by
  apply BitVec.eq_of_toNat_eq
  have := v.isLt
  simp only [toNat_append_byte, BitVec.extractLsb'_toNat, Nat.shiftRight_eq_div_pow]
  omega

/-- The eight bytes of a packet, put together again. -/
theorem append_extract_eight (v : Packet) :
    v.extractLsb' 56 8 ++ v.extractLsb' 48 8 ++ v.extractLsb' 40 8 ++ v.extractLsb' 32 8 ++ v.extractLsb' 24 8 ++
      v.extractLsb' 16 8 ++ v.extractLsb' 8 8 ++ v.extractLsb' 0 8 = v := by
  apply BitVec.eq_of_toNat_eq
  have := v.isLt
  simp only [toNat_append_byte, BitVec.extractLsb'_toNat, Nat.shiftRight_eq_div_pow]
  omega

/-- The low byte of a byte below a bit vector. -/
theorem extract_append_byte_zero {n : Nat} (x : BitVec n) (a : Byte) : (x ++ a).extractLsb' 0 8 = a := by
  apply BitVec.eq_of_toNat_eq
  have := a.isLt
  simp only [BitVec.extractLsb'_toNat, toNat_append_byte, Nat.shiftRight_zero]
  omega

/-- A higher byte of a byte below a bit vector. -/
theorem extract_append_byte_succ {n : Nat} (x : BitVec n) (a : Byte) (k : Nat) :
    (x ++ a).extractLsb' (8 + k) 8 = x.extractLsb' k 8 := by
  apply BitVec.eq_of_toNat_eq
  have := a.isLt
  simp only [BitVec.extractLsb'_toNat, toNat_append_byte, Nat.shiftRight_add]
  have h : (256 * x.toNat + a.toNat) >>> 8 = x.toNat := by rw [Nat.shiftRight_eq_div_pow]; omega
  rw [h]

end Sys2Proof
end

