-- ==== Sys2Proof/Laws/Memory.lean ====
section
/-! SUPPORT. What reading, writing and the canonical form of a byte memory have to do with one another. -/

namespace Sys2Proof.Machine

/-- A read after a write. -/
@[simp] theorem Memory.read_write (m : Memory) (a b : Nat) (v : Byte) :
    (m.write a v).read b = if b = a then some v else m.read b := by
  induction m with
  | nil => simp [Memory.write, Memory.read]
  | cons c m ih =>
    obtain ⟨k, w⟩ := c
    by_cases hlt : a < k
    · simp [Memory.write, Memory.read, hlt]
    · by_cases heq : a = k
      · subst heq
        by_cases hb : b = a <;> simp [Memory.write, Memory.read, hb]
      · by_cases hb : b = k
        · subst hb
          simp [Memory.write, Memory.read, hlt, heq, Ne.symm heq]
        · simp [Memory.write, Memory.read, hlt, heq, hb, ih]

/-- A write inside the range keeps the canonical form. -/
theorem Memory.wf_write {lo hi a : Nat} {v : Byte} {m : Memory} (h : Memory.wf lo hi m = true) (hlo : lo ≤ a)
    (hhi : a < hi) : Memory.wf lo hi (m.write a v) = true := by
  induction m generalizing lo with
  | nil => simp [Memory.write, Memory.wf, hlo, hhi]
  | cons c m ih =>
    obtain ⟨k, w⟩ := c
    simp only [Memory.wf, Bool.and_eq_true, decide_eq_true_eq] at h
    by_cases hlt : a < k
    · simp only [Memory.write, hlt, if_true, Memory.wf, Bool.and_eq_true, decide_eq_true_eq]
      exact ⟨⟨hlo, hhi⟩, ⟨hlt, h.1.2⟩, h.2⟩
    · by_cases heq : a = k
      · subst heq
        simpa [Memory.write, Memory.wf] using h
      · have : k + 1 ≤ a := by omega
        simp only [Memory.write, hlt, heq, if_false, Memory.wf, Bool.and_eq_true, decide_eq_true_eq]
        exact ⟨h.1, ih h.2 this⟩

/-- A read after a write of a byte sequence. -/
theorem Memory.read_writeBytes (bs : List Byte) (m : Memory) (a b : Nat) :
    (m.writeBytes a bs).read b = if a ≤ b ∧ b < a + bs.length then bs[b - a]? else m.read b := by
  induction bs generalizing m a with
  | nil => rw [Memory.writeBytes, if_neg (by simp)]
  | cons v vs ih =>
    rw [Memory.writeBytes, ih, Memory.read_write]
    by_cases hin : a + 1 ≤ b ∧ b < a + 1 + vs.length
    · obtain ⟨k, rfl⟩ : ∃ k, b = a + 1 + k := ⟨b - (a + 1), by omega⟩
      rw [if_pos hin, if_pos (by simp only [List.length_cons]; omega)]
      have h1 : a + 1 + k - (a + 1) = k := by omega
      have h2 : a + 1 + k - a = k + 1 := by omega
      rw [h1, h2, List.getElem?_cons_succ]
    · rw [if_neg hin]
      by_cases heq : b = a
      · subst heq; simp
      · rw [if_neg heq, if_neg (by simp only [List.length_cons]; omega)]

/-- Writing a byte sequence inside the range keeps the canonical form. -/
theorem Memory.wf_writeBytes {lo hi : Nat} (bs : List Byte) {a : Nat} {m : Memory} (h : Memory.wf lo hi m = true)
    (hlo : lo ≤ a) (hhi : a + bs.length ≤ hi) : Memory.wf lo hi (m.writeBytes a bs) = true := by
  induction bs generalizing m a with
  | nil => exact h
  | cons v vs ih =>
    simp only [List.length_cons] at hhi
    exact ih (Memory.wf_write h hlo (by omega)) (by omega) (by omega)

end Sys2Proof.Machine
end

