-- ==== Sys2Proof/Laws/State.lean ====
section
/-! SUPPORT. One lemma per field for each update of the state, so that no proof unfolds a record update. -/

namespace Sys2Proof.Machine

/-! ### `setCodec` -/

@[simp] theorem State.codec_setCodec (s : State) (u : CodecId) (c : Codec) : (s.setCodec u c).codec u = c := by
  cases u <;> rfl
@[simp] theorem State.codec_tx (s : State) : s.codec .tx = s.tx := rfl
@[simp] theorem State.codec_rx (s : State) : s.codec .rx = s.rx := rfl
@[simp] theorem State.setCodec_tx_tx (s : State) (c : Codec) : (s.setCodec .tx c).tx = c := rfl
@[simp] theorem State.setCodec_tx_rx (s : State) (c : Codec) : (s.setCodec .tx c).rx = s.rx := rfl
@[simp] theorem State.setCodec_rx_rx (s : State) (c : Codec) : (s.setCodec .rx c).rx = c := rfl
@[simp] theorem State.setCodec_rx_tx (s : State) (c : Codec) : (s.setCodec .rx c).tx = s.tx := rfl
@[simp] theorem State.setCodec_setCodec (s : State) (u : CodecId) (c d : Codec) :
    (s.setCodec u c).setCodec u d = s.setCodec u d := by cases u <;> rfl
@[simp] theorem State.setCodec_params (s : State) (u : CodecId) (c : Codec) :
    (s.setCodec u c).params = s.params := by cases u <;> rfl
@[simp] theorem State.setCodec_rxState (s : State) (u : CodecId) (c : Codec) :
    (s.setCodec u c).rxState = s.rxState := by cases u <;> rfl
@[simp] theorem State.setCodec_rxCount (s : State) (u : CodecId) (c : Codec) :
    (s.setCodec u c).rxCount = s.rxCount := by cases u <;> rfl
@[simp] theorem State.setCodec_slots (s : State) (u : CodecId) (c : Codec) :
    (s.setCodec u c).slots = s.slots := by cases u <;> rfl
@[simp] theorem State.setCodec_lastSentMs (s : State) (u : CodecId) (c : Codec) :
    (s.setCodec u c).lastSentMs = s.lastSentMs := by cases u <;> rfl
@[simp] theorem State.setCodec_store (s : State) (u : CodecId) (c : Codec) :
    (s.setCodec u c).store = s.store := by cases u <;> rfl
@[simp] theorem State.setCodec_env (s : State) (u : CodecId) (c : Codec) :
    (s.setCodec u c).env = s.env := by cases u <;> rfl
@[simp] theorem State.setCodec_commands (s : State) (u : CodecId) (c : Codec) :
    (s.setCodec u c).commands = s.commands := by cases u <;> rfl
@[simp] theorem State.setCodec_results (s : State) (u : CodecId) (c : Codec) :
    (s.setCodec u c).results = s.results := by cases u <;> rfl
@[simp] theorem State.setCodec_effects (s : State) (u : CodecId) (c : Codec) :
    (s.setCodec u c).effects = s.effects := by cases u <;> rfl

/-! ### `answer` -/

@[simp] theorem State.answer_results (s : State) (r : Result) : (s.answer r).results = s.results ++ [r] := rfl
@[simp] theorem State.answer_params (s : State) (r : Result) : (s.answer r).params = s.params := rfl
@[simp] theorem State.answer_tx (s : State) (r : Result) : (s.answer r).tx = s.tx := rfl
@[simp] theorem State.answer_rx (s : State) (r : Result) : (s.answer r).rx = s.rx := rfl
@[simp] theorem State.answer_codec (s : State) (r : Result) (u : CodecId) :
    (s.answer r).codec u = s.codec u := by cases u <;> rfl
@[simp] theorem State.answer_byte (s : State) (r : Result) (u : CodecId) (a : Nat) :
    (s.answer r).byte u a = s.byte u a := by cases u <;> rfl
@[simp] theorem State.answer_bytes (s : State) (r : Result) (u : CodecId) (a n : Nat) :
    (s.answer r).bytes u a n = s.bytes u a n := by cases u <;> rfl
@[simp] theorem State.answer_rxState (s : State) (r : Result) : (s.answer r).rxState = s.rxState := rfl
@[simp] theorem State.answer_rxCount (s : State) (r : Result) : (s.answer r).rxCount = s.rxCount := rfl
@[simp] theorem State.answer_slots (s : State) (r : Result) : (s.answer r).slots = s.slots := rfl
@[simp] theorem State.answer_lastSentMs (s : State) (r : Result) : (s.answer r).lastSentMs = s.lastSentMs := rfl
@[simp] theorem State.answer_store (s : State) (r : Result) : (s.answer r).store = s.store := rfl
@[simp] theorem State.answer_storeByte (s : State) (r : Result) (a : Nat) :
    (s.answer r).storeByte a = s.storeByte a := rfl
@[simp] theorem State.answer_env (s : State) (r : Result) : (s.answer r).env = s.env := rfl
@[simp] theorem State.answer_commands (s : State) (r : Result) : (s.answer r).commands = s.commands := rfl
@[simp] theorem State.answer_effects (s : State) (r : Result) : (s.answer r).effects = s.effects := rfl

/-- `return v` reports one Ok. -/
@[simp] theorem State.ret_eq (s : State) (v : Value) : s.ret v = s.answer (.ok v) := rfl

/-- `raise e` reports one Err and does nothing else (60_exceptions.md R120). -/
@[simp] theorem State.raise_eq (s : State) (e : Err) : s.raise e = s.answer (.err e) := rfl

/-! ### `emit` -/

@[simp] theorem State.emit_effects (s : State) (e : Effect) : (s.emit e).effects = s.effects ++ [e] := rfl
@[simp] theorem State.emit_params (s : State) (e : Effect) : (s.emit e).params = s.params := rfl
@[simp] theorem State.emit_tx (s : State) (e : Effect) : (s.emit e).tx = s.tx := rfl
@[simp] theorem State.emit_rx (s : State) (e : Effect) : (s.emit e).rx = s.rx := rfl
@[simp] theorem State.emit_rxState (s : State) (e : Effect) : (s.emit e).rxState = s.rxState := rfl
@[simp] theorem State.emit_rxCount (s : State) (e : Effect) : (s.emit e).rxCount = s.rxCount := rfl
@[simp] theorem State.emit_slots (s : State) (e : Effect) : (s.emit e).slots = s.slots := rfl
@[simp] theorem State.emit_lastSentMs (s : State) (e : Effect) : (s.emit e).lastSentMs = s.lastSentMs := rfl
@[simp] theorem State.emit_store (s : State) (e : Effect) : (s.emit e).store = s.store := rfl
@[simp] theorem State.emit_env (s : State) (e : Effect) : (s.emit e).env = s.env := rfl
@[simp] theorem State.emit_commands (s : State) (e : Effect) : (s.emit e).commands = s.commands := rfl
@[simp] theorem State.emit_results (s : State) (e : Effect) : (s.emit e).results = s.results := rfl

@[simp] theorem State.emitAll_nil (s : State) : s.emitAll [] = s := by simp [State.emitAll]
theorem State.emitAll_cons (s : State) (e : Effect) (es : List Effect) :
    s.emitAll (e :: es) = (s.emit e).emitAll es := by simp [State.emitAll, State.emit]
@[simp] theorem State.emitAll_effects (s : State) (es : List Effect) :
    (s.emitAll es).effects = s.effects ++ es := rfl

end Sys2Proof.Machine
end

