-- ==== Sys2Proof/Laws/Codec.lean ====
section
/-! SUPPORT. What the codec operations do: each is one replacement of one codec, and these are its bytes. -/

namespace Sys2Proof.Machine

/-! ### One codec -/

@[simp] theorem Codec.setByte_cursor (c : Codec) (a : Nat) (v : Byte) : (c.setByte a v).cursor = c.cursor := by
  unfold Codec.setByte; split <;> rfl

@[simp] theorem Codec.setBytes_cursor (bs : List Byte) (c : Codec) (a : Nat) :
    (c.setBytes a bs).cursor = c.cursor := by
  induction bs generalizing c a with
  | nil => rfl
  | cons v vs ih => simp [Codec.setBytes, ih]

/-- The hard-wired sentinel (10_state.md R17, R24). -/
theorem Codec.byte_sentinel (c : Codec) (u : CodecId) {a : Nat} (h : a < 2) : c.byte u a = 0x24#8 := by
  simp [Codec.byte, h]

/-- The cursor has no part in a byte. -/
@[simp] theorem Codec.byte_withCursor (c : Codec) (n : Nat) (u : CodecId) (a : Nat) :
    Codec.byte ⟨c.buf, n⟩ u a = c.byte u a := rfl

/-- A byte after a write of one byte. -/
theorem Codec.byte_setByte (c : Codec) (u : CodecId) (a b : Nat) (v : Byte) :
    (c.setByte a v).byte u b = if b = a ∧ 2 ≤ a then v else c.byte u b := by
  unfold Codec.setByte Codec.byte
  by_cases ha : a < 2
  · simp [ha]
  · by_cases hb : b = a
    · subst hb; simp [ha, Nat.le_of_not_lt ha]
    · simp [ha, hb]

/-- A byte after a write of a sequence. -/
theorem Codec.byte_setBytes (bs : List Byte) (c : Codec) (u : CodecId) (a b : Nat) (h2 : 2 ≤ a) :
    (c.setBytes a bs).byte u b = if h : a ≤ b ∧ b < a + bs.length then bs[b - a] else c.byte u b := by
  induction bs generalizing c a with
  | nil => rw [Codec.setBytes, dif_neg (by simp)]
  | cons v vs ih =>
    rw [Codec.setBytes, ih _ _ (by omega), Codec.byte_setByte]
    by_cases hin : a + 1 ≤ b ∧ b < a + 1 + vs.length
    · obtain ⟨k, rfl⟩ : ∃ k, b = a + 1 + k := ⟨b - (a + 1), by omega⟩
      rw [dif_pos hin, dif_pos (by simp only [List.length_cons]; omega)]
      have h1 : a + 1 + k - (a + 1) = k := by omega
      have h2 : a + 1 + k - a = k + 1 := by omega
      simp only [h1, h2, List.getElem_cons_succ]
    · rw [dif_neg hin]
      by_cases heq : b = a
      · subst heq; simp [h2]
      · rw [if_neg (by tauto), dif_neg (by simp only [List.length_cons]; omega)]

theorem Codec.wf_setByte {c : Codec} {a : Nat} {v : Byte} (h : Memory.wf 2 256 c.buf = true) (ha : a < 256) :
    Memory.wf 2 256 (c.setByte a v).buf = true := by
  unfold Codec.setByte
  split
  · exact h
  · exact Memory.wf_write h (by omega) ha

theorem Codec.wf_setBytes (bs : List Byte) {c : Codec} {a : Nat} (h : Memory.wf 2 256 c.buf = true)
    (ha : a + bs.length ≤ 256) : Memory.wf 2 256 (c.setBytes a bs).buf = true := by
  induction bs generalizing c a with
  | nil => exact h
  | cons v vs ih =>
    simp only [List.length_cons] at ha
    exact ih (Codec.wf_setByte h (by omega)) (by omega)

/-! ### The state's codecs -/

@[simp] theorem State.byte_setCodec_same (s : State) (u : CodecId) (c : Codec) (a : Nat) :
    (s.setCodec u c).byte u a = c.byte u a := by simp [State.byte]

theorem State.tx_byte (s : State) (a : Nat) : s.tx.byte .tx a = s.byte .tx a := rfl

theorem State.rx_byte (s : State) (a : Nat) : s.rx.byte .rx a = s.byte .rx a := rfl

@[simp] theorem State.bytes_zero (s : State) (u : CodecId) (a : Nat) : s.bytes u a 0 = [] := rfl

theorem State.bytes_succ (s : State) (u : CodecId) (a n : Nat) :
    s.bytes u a (n + 1) = s.byte u a :: s.bytes u (a + 1) n := by
  simp [State.bytes, List.range_succ_eq_map, List.map_map, Function.comp_def, Nat.add_assoc, Nat.add_comm 1]

@[simp] theorem State.bytes_length (s : State) (u : CodecId) (a n : Nat) : (s.bytes u a n).length = n := by
  simp [State.bytes]

@[simp] theorem State.byte_setCodec_tx_rx (s : State) (c : Codec) (a : Nat) :
    (s.setCodec .tx c).byte .rx a = s.byte .rx a := rfl

@[simp] theorem State.byte_setCodec_rx_tx (s : State) (c : Codec) (a : Nat) :
    (s.setCodec .rx c).byte .tx a = s.byte .tx a := rfl

@[simp] theorem State.byte_emit (s : State) (e : Effect) (u : CodecId) (a : Nat) :
    (s.emit e).byte u a = s.byte u a := by cases u <;> rfl

@[simp] theorem State.onTx_tx (s : State) (f : State → State) : s.onTx .tx f = f s := rfl

/-- The mutating functions addressed to RX (40_codec.md R77). -/
@[simp] theorem State.onTx_rx (s : State) (f : State → State) :
    s.onTx .rx f = s.answer (.err .illegalCommand) := rfl

/-- RESET's codec, as one replacement (40_codec.md R79). -/
theorem State.rewind_eq (s : State) (u : CodecId) :
    s.rewind u = s.setCodec u (Codec.setByte ⟨(s.codec u).buf, 4⟩ 2 1#8) := by
  have h : BitVec.ofNat 8 Config.headerLen - 3#8 = 1#8 := by decide
  cases u <;> simp [State.rewind, State.updateLength, State.setByte, State.setCursor, h]

/-- A successful append, as one replacement (40_codec.md R78, R83 to R91). -/
theorem State.append_eq (s : State) (bs : List Byte) :
    s.append bs = s.setCodec .tx (Codec.setByte ⟨(s.tx.setBytes s.tx.cursor bs).buf, s.tx.cursor + bs.length⟩ 2
      (BitVec.ofNat 8 (s.tx.cursor + bs.length) - 3#8)) := rfl

/-- The length byte of a cursor in range (40_codec.md R78). -/
theorem lengthByte_eq {c : Nat} (h : 3 ≤ c) : BitVec.ofNat 8 c - 3#8 = BitVec.ofNat 8 (c - 3) := by
  apply BitVec.eq_of_toNat_eq
  simp only [BitVec.toNat_sub, BitVec.toNat_ofNat]
  omega

/-- Everything a successful append of bytes that fit does (40_codec.md R78, R83 to R91). -/
theorem State.append_spec {s : State} {bs : List Byte} (hlow : 4 ≤ s.tx.cursor) :
    Appended s ((s.append bs).ret .unit) bs := by
  have hother : ∀ a, a ≠ 2 → a < s.tx.cursor ∨ s.tx.cursor + bs.length ≤ a →
      (s.append bs).byte .tx a = s.byte .tx a := by
    intro a ha hout
    rw [State.append_eq, State.byte_setCodec_same, Codec.byte_setByte, if_neg (by tauto)]
    refine (Codec.byte_setBytes bs s.tx .tx s.tx.cursor a (by omega)).trans ?_
    rw [dif_neg (by omega)]; rfl
  refine ⟨?_, by simp [State.append_eq], ?_, fun a h1 h2 => by simpa using hother a h1 h2, ?_, by
    simp [State.append_eq]⟩
  · apply List.ext_getElem
    · simp [State.bytes]
    · intro k h1 h2
      have hk : k < bs.length := h2
      simp only [State.ret_eq, State.bytes, List.getElem_map, List.getElem_range]
      rw [State.answer_byte, State.append_eq, State.byte_setCodec_same, Codec.byte_setByte, if_neg (by omega)]
      refine (Codec.byte_setBytes bs s.tx .tx s.tx.cursor _ (by omega)).trans ?_
      rw [dif_pos (by omega)]
      simp
  · simp only [State.ret_eq, State.answer_byte, State.answer_tx]
    rw [State.append_eq, State.byte_setCodec_same, Codec.byte_setByte, if_pos (by omega),
      lengthByte_eq (by omega)]
    simp
  · rfl

/-- Everything an append to TX can do (40_codec.md R83 to R91, 60_exceptions.md R124). -/
theorem State.addField_cases (s : State) (bs : List Byte) :
    (256 < s.tx.cursor + bs.length ∧ s.addField bs = s.answer (.err .bufferOverflow)) ∨
    (s.tx.cursor + bs.length ≤ 256 ∧ s.addField bs = (s.append bs).answer (.ok .unit)) := by
  unfold State.addField
  by_cases h : 256 < s.tx.cursor + bs.length
  · exact .inl ⟨h, by simp [Config.capacity, h]⟩
  · exact .inr ⟨by omega, by simp [Config.capacity, h]⟩

/-- The length of a string field (20_memory.md R42). -/
theorem stringField_length (str : List Byte) : (stringField str).length = 1 + min str.length 255 := by
  simp [stringField, Config.strMax, Nat.min_comm, Nat.add_comm]

/-- Everything a read of bytes can do (40_codec.md R86 to R90). -/
theorem State.fetch_cases {s : State} {u : CodecId} {n : Nat} {value : List Byte → Value} {o : Outcome}
    (h : s.fetch u n value = o) :
    (s.remaining u < n ∧ o = .next (s.answer (.err .truncatedMessage))) ∨
    (n ≤ s.remaining u ∧ n ≠ 0 ∧ 256 < (s.codec u).cursor + n ∧ o = .fault .offsetBeyondBuffer) ∨
    (n ≤ s.remaining u ∧ (n = 0 ∨ (s.codec u).cursor + n ≤ 256) ∧
      o = .next ((s.setCursor u ((s.codec u).cursor + n)).answer
        (.ok (value (s.bytes u (s.codec u).cursor n))))) := by
  unfold State.fetch at h
  by_cases hr : s.remaining u < n
  · exact .inl ⟨hr, by simpa [hr] using h.symm⟩
  · rw [if_neg hr] at h
    by_cases hin : n = 0 ∨ (s.codec u).cursor + n ≤ 256
    · exact .inr (.inr ⟨by omega, hin, by simpa [State.bytes?, hin] using h.symm⟩)
    · exact .inr (.inl ⟨by omega, by tauto, by omega, by
        simpa [State.bytes?, hin, Config.capacity] using h.symm⟩)

/-- A read of bytes that are all there (40_codec.md R86 to R90). -/
theorem State.fetch_next {s : State} {u : CodecId} {n : Nat} (value : List Byte → Value)
    (hr : n ≤ s.remaining u) (hin : n = 0 ∨ (s.codec u).cursor + n ≤ 256) :
    s.fetch u n value = .next ((s.setCursor u ((s.codec u).cursor + n)).answer
      (.ok (value (s.bytes u (s.codec u).cursor n)))) := by
  rw [State.fetch, if_neg (by omega)]
  simp [State.bytes?, hin, Config.capacity]

/-- A read of more bytes than remain (60_exceptions.md R125). -/
theorem State.fetch_truncated {s : State} {u : CodecId} {n : Nat} (value : List Byte → Value)
    (hr : s.remaining u < n) : s.fetch u n value = .next (s.answer (.err .truncatedMessage)) := by
  rw [State.fetch, if_pos hr]; rfl

/-- With no received frame nothing remains (40_codec.md R76). -/
theorem State.remaining_noFrame {s : State} {u : CodecId} (h : u = .tx ∨ s.rxState ≠ .ready) :
    s.remaining u = 0 := by
  rw [State.remaining, State.frameEnd, if_neg (by rcases h with rfl | h <;> simp_all)]
  exact Nat.sub_self _

/-- In READY what remains is measured to the end of the frame (40_codec.md R76). -/
theorem State.remaining_ready {s : State} (h : s.rxState = .ready) :
    s.remaining .rx = (s.byte .rx 2).toNat + 3 - s.rx.cursor := by
  simp [State.remaining, State.frameEnd, h]

end Sys2Proof.Machine
end

