-- ==== Sys2Proof/Laws/Channel.lean ====
section
/-! SUPPORT. What a sender does, as one of two sequences of codec operations. -/

namespace Sys2Proof.Machine

/-- A string of at most 255 bytes is not cut (spec/30_encoding.md R56). -/
theorem stringField_short {str : List Byte} (h : str.length ≤ 255) :
    stringField str = BitVec.ofNat 8 str.length :: str := by
  simp [stringField, Config.strMax, List.take_of_length_le h]

/-- The TX message of a sender before its string: rewound, with the type byte set (41_channel.md R97). -/
def State.senderHeader (s : State) (t : Byte) : State := (s.rewind .tx).setByte .tx 3 t

@[simp] theorem State.senderHeader_cursor (s : State) (t : Byte) : (s.senderHeader t).tx.cursor = 4 := by
  simp [State.senderHeader, State.rewind_eq, State.setByte]

/-- Everything a sender can do (41_channel.md R97, 60_exceptions.md R124). -/
theorem State.sendString_cases (s : State) (t : Byte) (str : List Byte) :
    (252 ≤ str.length ∧
      s.sendString t str = ((s.senderHeader t).rewind .tx).answer (.err .bufferOverflow)) ∨
    (str.length ≤ 251 ∧
      let sent := (s.senderHeader t).append (BitVec.ofNat 8 str.length :: str)
      s.sendString t str =
        ((sent.emit (.transportWrite (sent.bytes .tx 0 (5 + str.length)))).rewind .tx).answer (.ok .unit)) := by
  by_cases h : 252 ≤ str.length
  · refine .inl ⟨h, ?_⟩
    simp only [State.sendString]
    rw [if_pos]
    · rfl
    · change (s.senderHeader t).tx.cursor + _ > 256
      rw [State.senderHeader_cursor, stringField_length]
      omega
  · refine .inr ⟨by omega, ?_⟩
    have hc : ((s.senderHeader t).append (BitVec.ofNat 8 str.length :: str)).tx.cursor = 5 + str.length := by
      simp [State.append_eq]; omega
    simp only [State.sendString]
    rw [if_neg]
    · change ((State.emit _ (.transportWrite (State.bytes _ .tx 0
        ((s.senderHeader t).append (stringField str)).tx.cursor))).rewind .tx).ret .unit = _
      rw [stringField_short (by omega), hc]
      rfl
    · change ¬ ((s.senderHeader t).tx.cursor + _ > 256)
      rw [State.senderHeader_cursor, stringField_length]
      omega

end Sys2Proof.Machine
end

