-- ==== Sys2Proof/Laws/PerInstr.lean ====
section
/-! SUPPORT. Statements made for each command as syntax, with one lemma for each constructor. -/

namespace Sys2Proof

/-- The opcode byte alone fixes the row, so `Length` of a command is one more than what its format says
(spec/30_encoding.md R68). -/
theorem commandLength_cons {op : Byte} {r : Row} {bs : List Byte} {n : Nat} (h : opcodeRow op = some r)
    (hl : r.format.length bs = some n) : commandLength (op :: bs) = some n := by
  simp only [commandLength, h, hl]

/-- The count operand of format FB announces the data's length (30_encoding.md R63). -/
theorem length_encodeFB {data : List Byte} (h : data.length ≤ 255) :
    Format.fb.length (encodeFB data) = some (2 + data.length) := by
  show some (2 + (BitVec.ofNat 8 data.length).toNat) = _
  rw [BitVec.toNat_ofNat, Nat.mod_eq_of_lt (by omega)]

/-- The count operand of format FS announces the data's length (30_encoding.md R63). -/
theorem length_encodeFS {data : List Byte} (h : data.length ≤ 65535) :
    Format.fs.length (encodeFS data) = some (3 + data.length) := by
  show some (3 + ((BitVec.ofNat 16 data.length).extractLsb' 8 8 ++ (BitVec.ofNat 16 data.length).extractLsb' 0 8 :
    Half).toNat) = _
  rw [append_extract_two, BitVec.toNat_ofNat, Nat.mod_eq_of_lt (by omega)]

end Sys2Proof

/-- The bytes of a well-formed command are as many as `Length` reads from their head (spec/30_encoding.md R68). -/
def Sys2Proof.Laws.EncodeLength.Statement (i : Sys2Proof.Instr) : Prop :=
  i.wf = true → Sys2Proof.commandLength (Sys2Proof.encode i) = some (Sys2Proof.encode i).length

namespace Sys2Proof.Laws.EncodeLength

theorem reset (u : CodecId) : Statement (.reset u) := fun _ => by cases u <;> rfl
theorem setType (u : CodecId) (t : Byte) : Statement (.setType u t) := fun _ => by cases u <;> rfl
theorem getType (u : CodecId) : Statement (.getType u) := fun _ => by cases u <;> rfl
theorem getLength (u : CodecId) : Statement (.getLength u) := fun _ => by cases u <;> rfl
theorem addFixedB (u : CodecId) (v : Byte) : Statement (.addFixedB u v) := fun _ => by cases u <;> rfl
theorem addFixedH (u : CodecId) (v : Half) : Statement (.addFixedH u v) := fun _ => by cases u <;> rfl
theorem addFixedW (u : CodecId) (v : Word) : Statement (.addFixedW u v) := fun _ => by cases u <;> rfl
theorem getFixedB (u : CodecId) : Statement (.getFixedB u) := fun _ => by cases u <;> rfl
theorem getFixedH (u : CodecId) : Statement (.getFixedH u) := fun _ => by cases u <;> rfl
theorem getFixedW (u : CodecId) : Statement (.getFixedW u) := fun _ => by cases u <;> rfl
theorem addBytes (u : CodecId) (data : List Byte) : Statement (.addBytes u data) := fun h => by
  have hl := length_encodeFB (of_decide_eq_true h)
  have hn : (encode (.addBytes u data)).length = 2 + data.length := by
    simp [encode, encodeFB]; omega
  rw [hn]
  cases u
  · exact commandLength_cons (op := 0x0C) rfl hl
  · exact commandLength_cons (op := 0x4C) rfl hl
theorem getBytes (u : CodecId) (n : Byte) : Statement (.getBytes u n) := fun _ => by cases u <;> rfl
theorem addString (u : CodecId) (str : List Byte) : Statement (.addString u str) := fun h => by
  have hl := length_encodeFS (of_decide_eq_true h)
  have hn : (encode (.addString u str)).length = 3 + str.length := by
    simp [encode, encodeFS]; omega
  rw [hn]
  cases u
  · exact commandLength_cons (op := 0x0E) rfl hl
  · exact commandLength_cons (op := 0x4E) rfl hl
theorem getString (u : CodecId) : Statement (.getString u) := fun _ => by cases u <;> rfl
theorem send (u : CodecId) : Statement (.send u) := fun _ => by cases u <;> rfl
theorem sendFw (str : List Byte) : Statement (.sendFw str) := fun h => by
  have hn : (encode (.sendFw str)).length = 3 + str.length := by simp [encode, encodeFS]; omega
  rw [hn]
  exact commandLength_cons (op := 0x80) rfl (length_encodeFS (of_decide_eq_true h))
theorem sendPv (str : List Byte) : Statement (.sendPv str) := fun h => by
  have hn : (encode (.sendPv str)).length = 3 + str.length := by simp [encode, encodeFS]; omega
  rw [hn]
  exact commandLength_cons (op := 0x81) rfl (length_encodeFS (of_decide_eq_true h))
theorem sendLog (str : List Byte) : Statement (.sendLog str) := fun h => by
  have hn : (encode (.sendLog str)).length = 3 + str.length := by simp [encode, encodeFS]; omega
  rw [hn]
  exact commandLength_cons (op := 0x82) rfl (length_encodeFS (of_decide_eq_true h))
theorem rxByte (b : Byte) : Statement (.rxByte b) := fun _ => rfl
theorem init : Statement .init := fun _ => rfl
theorem bind (slot : Byte) (pin : Half) (rev : Byte) : Statement (.bind slot pin rev) := fun _ => rfl
theorem clear : Statement .clear := fun _ => rfl
theorem rbind (slot packed : Byte) : Statement (.rbind slot packed) := fun _ => rfl
theorem tick (now : Word) : Statement (.tick now) := fun _ => rfl
theorem build : Statement .build := fun _ => rfl
theorem xmit (packet : Packet) : Statement (.xmit packet) := fun _ => rfl

end Sys2Proof.Laws.EncodeLength
end

