-- ==== Sys2Proof/Laws/Sampler.lean ====
section
/-! SUPPORT. What sampling does: the answers it uses, the reads it issues and the bits it sets. -/

namespace Sys2Proof.Machine

/-- The next answer is answer number 0. -/
theorem Env.nextPinRead_eq (e : Env) : e.nextPinRead = (e.pinAnswer 0, e.afterPinReads 1) := by
  obtain ⟨a, b, p, d, k⟩ := e
  cases p <;> simp [Env.nextPinRead, Env.pinAnswer, Env.afterPinReads]

@[simp] theorem Env.afterPinReads_zero (e : Env) : e.afterPinReads 0 = e := by simp [Env.afterPinReads]

/-- Answers are taken one after the other. -/
theorem Env.afterPinReads_add (e : Env) (a b : Nat) :
    (e.afterPinReads a).afterPinReads b = e.afterPinReads (a + b) := by
  simp only [Env.afterPinReads, List.drop_drop, List.length_drop, Env.mk.injEq, true_and]
  omega

theorem Env.pinAnswer_after (e : Env) (a k : Nat) : (e.afterPinReads a).pinAnswer k = e.pinAnswer (a + k) := by
  unfold Env.pinAnswer Env.afterPinReads
  by_cases h : a + k < e.pinReads.length
  · rw [dif_pos (by simp only [List.length_drop]; omega), dif_pos h]
    simp
  · rw [dif_neg (by simp only [List.length_drop]; omega), dif_neg h]
    simp only [List.length_drop]
    congr 1
    omega

/-- Reading one pin (00_scope.md R12). -/
theorem State.readPin_spec (s : State) (pin : Fin 127) :
    s.readPin pin = (s.env.pinAnswer 0,
      { s with env := s.env.afterPinReads 1, effects := s.effects ++ [.readDigital pin] }) := by
  simp [State.readPin, Env.nextPinRead_eq, State.emit]

/-- The state after sampling: one read for each bound slot, in order (43_sampler.md R114). -/
theorem State.sampleFrom_state (slots : List Slot) (s : State) (i : Nat) :
    (s.sampleFrom i slots).2 = { s with
      env := s.env.afterPinReads (slots.filterMap (·.pin)).length
      effects := s.effects ++ (slots.filterMap (·.pin)).map .readDigital } := by
  induction slots generalizing s i with
  | nil => simp [State.sampleFrom]
  | cons slot rest ih =>
    cases hp : slot.pin with
    | none => simp [State.sampleFrom, hp, ih]
    | some pin =>
      simp only [State.sampleFrom, hp, State.readPin_spec, ih, List.filterMap_cons, List.length_cons,
        List.map_cons, Env.afterPinReads_add]
      simp [Nat.add_comm]

/-- The bit of one sample. -/
theorem sampleBit_getLsbD (b : Bool) (i k : Nat) (h : i < 64) :
    ((BitVec.ofBool b).zeroExtend 64 <<< i).getLsbD k = (decide (k = i) && b) := by
  rw [BitVec.getLsbD_shiftLeft]
  by_cases hk : k < i
  · simp [hk, Nat.ne_of_lt hk]
  · by_cases he : k = i
    · subst he; simp [h]
    · have : k - i ≠ 0 := by omega
      cases b <;> simp [he]
      omega

/-- The bits after sampling: bit k is the answer of slot k, XOR reversed, where that slot is bound, and 0 elsewhere
(43_sampler.md R114). -/
theorem State.sampleFrom_bits (slots : List Slot) (s : State) (i k : Nat) (h : i + slots.length ≤ 64) :
    (s.sampleFrom i slots).1.getLsbD k =
      if hk : i ≤ k ∧ k < i + slots.length then
        (slots[k - i].pin.isSome &&
          (s.env.pinAnswer ((slots.take (k - i)).filterMap (·.pin)).length ^^ slots[k - i].reversed))
      else false := by
  induction slots generalizing s i with
  | nil => rw [dif_neg (by simp)]; simp [State.sampleFrom]
  | cons slot rest ih =>
    simp only [List.length_cons] at h
    have step : ∀ s' : State, (s'.sampleFrom (i + 1) rest).1.getLsbD k =
        if hk : i + 1 ≤ k ∧ k < i + 1 + rest.length then
          (rest[k - (i + 1)].pin.isSome &&
            (s'.env.pinAnswer ((rest.take (k - (i + 1))).filterMap (·.pin)).length ^^
              rest[k - (i + 1)].reversed))
        else false := fun s' => ih s' (i + 1) (by omega)
    by_cases hlt : i + 1 ≤ k ∧ k < i + 1 + rest.length
    · obtain ⟨d, rfl⟩ : ∃ d, k = i + 1 + d := ⟨k - (i + 1), by omega⟩
      have e1 : i + 1 + d - i = d + 1 := by omega
      have e2 : i + 1 + d - (i + 1) = d := by omega
      rw [dif_pos (by simp only [List.length_cons]; omega)]
      simp only [e1, List.getElem_cons_succ, List.take_succ_cons, List.filterMap_cons]
      cases hp : slot.pin with
      | none =>
        simp only [State.sampleFrom, hp, step]
        rw [dif_pos hlt]
        simp only [e2]
      | some pin =>
        simp only [State.sampleFrom, hp, State.readPin_spec, BitVec.getLsbD_or, step]
        rw [dif_pos hlt, sampleBit_getLsbD _ _ _ (by omega)]
        have hne : i + 1 + d ≠ i := by omega
        simp only [e2, List.length_cons, Env.pinAnswer_after, Nat.add_comm 1, hne, decide_false,
          Bool.false_and, Bool.false_or]
    · by_cases he : k = i
      · subst he
        rw [dif_pos (by simp)]
        simp only [Nat.sub_self, List.getElem_cons_zero, List.take_zero, List.filterMap_nil, List.length_nil]
        cases hp : slot.pin with
        | none => simp only [State.sampleFrom, hp, step]; rw [dif_neg hlt]; simp
        | some pin =>
          simp only [State.sampleFrom, hp, State.readPin_spec, BitVec.getLsbD_or, step]
          rw [dif_neg hlt, sampleBit_getLsbD _ _ _ (by omega)]
          simp
      · rw [dif_neg (by simp only [List.length_cons]; omega)]
        cases hp : slot.pin with
        | none => simp only [State.sampleFrom, hp, step]; rw [dif_neg hlt]
        | some pin =>
          simp only [State.sampleFrom, hp, State.readPin_spec, BitVec.getLsbD_or, step]
          rw [dif_neg hlt, sampleBit_getLsbD _ _ _ (by omega)]
          simp [he]

/-- When a send is due (43_sampler.md R113). -/
theorem sendDue_iff (now last : Word) : sendDue now last = true ↔ 20 ≤ (now - last).toNat := by
  rw [sendDue, decide_eq_true_iff]; rfl

/-- BUILD's state and packet (43_sampler.md R114). -/
theorem State.buildPacket_state (s : State) :
    s.buildPacket.2 = { s with
      env := s.env.afterPinReads (s.slots.toList.filterMap (·.pin)).length
      effects := s.effects ++ (s.slots.toList.filterMap (·.pin)).map .readDigital } :=
  State.sampleFrom_state _ _ _

/-- Everything the transmit step does (43_sampler.md R115). -/
theorem State.transmit_spec (s : State) (p : Packet) (v : Value) :
    s.transmit p v =
      if s.env.nextBusWrite.1 then
        { s with env := s.env.nextBusWrite.2, effects := s.effects ++
            [Effect.busWritePacket s.params.busAddress (leBytes 8 p) 8 2] }.answer (.ok v)
      else
        { s with env := s.env.nextBusWrite.2, effects := s.effects ++
            [Effect.busWritePacket s.params.busAddress (leBytes 8 p) 8 2, Effect.log .transmitFailure] }.answer
          (.err .transmitFailure) := by
  unfold State.transmit
  by_cases h : s.env.nextBusWrite.1 <;> simp [h, State.emit, State.answer]

end Sys2Proof.Machine
end

