-- ==== Sys2Proof/Laws/Table.lean ====
section
/-! SUPPORT. What the table operations do: persisting, loading, and the operands of BIND. -/

namespace Sys2Proof.Machine

@[simp] theorem tableImage_length (layout : BindingByteLayout) (slots : Vector Slot 16) :
    (tableImage layout slots).length = 16 := by simp [tableImage]

/-- The bytes that a storage write leaves in the region: the written ones, or after a failure the answer's
(20_memory.md R35, R36). -/
def writtenBytes (image : List Byte) : WriteAnswer → List Byte
  | .ok => image
  | .fail left => left.toList

theorem writtenBytes_length {image : List Byte} (h : image.length = 16) (w : WriteAnswer) :
    (writtenBytes image w).length = 16 := by
  cases w <;> simp [writtenBytes, h]

/-- Everything `Persist()` does (42_binding_table.md R105). -/
theorem State.persist_spec (s : State) :
    s.persist.1 = decide (s.env.nextStorageWrite.1 = .ok) ∧
    s.persist.2 = { s with
      effects := s.effects ++ [.storageWrite s.params.tableBase (tableImage s.params.layout s.slots)]
      env := s.env.nextStorageWrite.2
      store := s.store.writeBytes s.params.tableBase
        (writtenBytes (tableImage s.params.layout s.slots) s.env.nextStorageWrite.1) } := by
  unfold State.persist
  split <;> rename_i h <;> simp [h, State.emit, writtenBytes]

/-- The storage region after a write of 16 bytes (20_memory.md R35). -/
theorem storeHolds_writeBytes {s n : State} {bs : List Byte} (hlen : bs.length = 16)
    (hstore : n.store = s.store.writeBytes s.params.tableBase bs) : StoreHolds s n bs := by
  refine ⟨List.ext_getElem (by simp [hlen]) fun k h1 h2 => ?_, fun a ha => ?_⟩
  · simp only [List.getElem_map, List.getElem_range, State.storeByte, hstore, Memory.read_writeBytes]
    rw [if_pos (by omega)]
    simp [h2]
  · simp only [State.storeByte, hstore, Memory.read_writeBytes]
    rw [if_neg (by omega)]

/-- `LoadImage` (30_encoding.md R59). -/
@[simp] theorem loadImage_getElem (layout : BindingByteLayout) (b : Fin 16 → Byte) (i : Fin 16) :
    (loadImage layout b)[i] = unpackSlot layout (b i) := by
  simp [loadImage]

/-- Everything the loading part of INIT does (42_binding_table.md R106). -/
theorem State.loadTable_spec (s : State) : ∃ slots : Vector Slot 16,
    (∀ i : Fin 16, slots[i] = unpackSlot s.params.layout (s.storeByte (s.params.tableBase + i.val))) ∧
    s.loadTable = { s with
      slots := slots
      effects := s.effects ++ (slots.toList.filterMap (·.pin)).map .configureInput
      results := s.results ++ [.ok .unit] } :=
  ⟨_, loadImage_getElem _ _, rfl⟩

/-- Unpacking a packed slot gives it back, under both layouts (30_encoding.md R57, R58): the pin code is never 0 for
a bound slot. -/
theorem pinOf_pinCode (p : Option (Fin 127)) : pinOf (pinCode p) = p := by
  cases p with
  | none => rfl
  | some n =>
    have hn := n.isLt
    have hv : (BitVec.ofNat 7 (n.val + 1)).toNat = n.val + 1 := by
      rw [BitVec.toNat_ofNat]; exact Nat.mod_eq_of_lt (by omega)
    have h0 : BitVec.ofNat 7 (n.val + 1) ≠ 0#7 := fun h => by
      have := congrArg BitVec.toNat h
      rw [hv] at this
      simp at this
    simp only [pinCode, pinOf, h0, if_false, Option.some.injEq]
    exact Fin.ext (by simp only [hv]; omega)

/-- A valid slot operand (42_binding_table.md R104). -/
theorem slotOperand_ofNat (i : Fin 16) : slotOperand (BitVec.ofNat 8 i.val) = some i := by
  have := i.isLt
  have h : (BitVec.ofNat 8 i.val).toNat = i.val := by rw [BitVec.toNat_ofNat]; exact Nat.mod_eq_of_lt (by omega)
  simp only [slotOperand, h]
  rw [dif_pos (by omega)]

/-- A valid pin operand (42_binding_table.md R104). -/
theorem pinOperand_ofNat (n : Fin 127) : pinOperand (BitVec.ofNat 16 n.val) = some n := by
  have := n.isLt
  have h : (BitVec.ofNat 16 n.val).toNat = n.val := by rw [BitVec.toNat_ofNat]; exact Nat.mod_eq_of_lt (by omega)
  simp only [pinOperand, h]
  rw [dif_pos (Nat.le_of_lt_succ n.isLt)]

/-- Everything the common part of BIND and RBIND can do (42_binding_table.md R107). -/
theorem State.bindSlot_cases (s : State) (i : Fin 16) (n : Fin 127) (r : Bool) :
    (s.slots[i] = ⟨some n, r⟩ ∧ s.bindSlot i n r = s.answer (.ok .unit)) ∨
    (s.slots[i] ≠ ⟨some n, r⟩ ∧ s.env.nextStorageWrite.1 = .ok ∧
      s.bindSlot i n r = ({ s with slots := s.slots.set i ⟨some n, r⟩ }.persist.2.emit
        (.configureInput n)).answer (.ok .unit)) ∨
    (s.slots[i] ≠ ⟨some n, r⟩ ∧ s.env.nextStorageWrite.1 ≠ .ok ∧
      s.bindSlot i n r = { s with slots := s.slots.set i ⟨some n, r⟩ }.persist.2.answer
        (.err .persistenceFailure)) := by
  by_cases hs : s.slots[i] = ⟨some n, r⟩
  · exact .inl ⟨hs, by simp only [State.bindSlot]; rw [if_pos hs]; rfl⟩
  · have hp := (State.persist_spec { s with slots := s.slots.set i ⟨some n, r⟩ }).1
    by_cases hw : s.env.nextStorageWrite.1 = .ok
    · refine .inr (.inl ⟨hs, hw, ?_⟩)
      simp only [State.bindSlot]
      rw [if_neg hs, if_pos (by simpa [hw] using hp)]; rfl
    · refine .inr (.inr ⟨hs, hw, ?_⟩)
      simp only [State.bindSlot]
      rw [if_neg hs, if_neg (by simp [hp, hw])]; rfl

end Sys2Proof.Machine
end

