-- ==== Sys2Proof/Machine/Assembler.lean ====
section
/-! DEFINITION. The assembler's side of the command set: the text of a command and the pseudo-instructions, none of
which has an opcode (spec/30_encoding.md rules R71, R72). The machine itself runs commands only. -/

namespace Sys2Proof

/-- The codec names (30_encoding.md R71). -/
def CodecId.text : CodecId → String
  | .tx => "TX"
  | .rx => "RX"

/-- One byte as two hexadecimal digits. -/
def hexByte (b : Byte) : String :=
  let digit (n : Nat) : Char := if n < 10 then Char.ofNat (48 + n) else Char.ofNat (55 + n)
  String.ofList [digit (b.toNat / 16), digit (b.toNat % 16)]

/-- Byte data as a hex list in brackets (30_encoding.md R71). -/
def hexList (bs : List Byte) : String := "[" ++ String.intercalate " " (bs.map hexByte) ++ "]"

/-- An immediate, in decimal (30_encoding.md R71). -/
def immediate {w : Nat} (v : BitVec w) : String := Nat.repr v.toNat

/-- The assembler text of a command (30_encoding.md R71): the mnemonic, the codec name of a codec command, and the
immediates, separated by commas. -/
def Instr.text : Instr → String
  | .reset u => "RESET " ++ u.text
  | .setType u t => "SETTYPE " ++ u.text ++ ", " ++ immediate t
  | .getType u => "GETTYPE " ++ u.text
  | .getLength u => "GETLENGTH " ++ u.text
  | .addFixedB u v => "ADDFIXED.B " ++ u.text ++ ", " ++ immediate v
  | .addFixedH u v => "ADDFIXED.H " ++ u.text ++ ", " ++ immediate v
  | .addFixedW u v => "ADDFIXED.W " ++ u.text ++ ", " ++ immediate v
  | .getFixedB u => "GETFIXED.B " ++ u.text
  | .getFixedH u => "GETFIXED.H " ++ u.text
  | .getFixedW u => "GETFIXED.W " ++ u.text
  | .addBytes u data => "ADDBYTES " ++ u.text ++ ", " ++ hexList data
  | .getBytes u n => "GETBYTES " ++ u.text ++ ", " ++ immediate n
  | .addString u str => "ADDSTRING " ++ u.text ++ ", " ++ hexList str
  | .getString u => "GETSTRING " ++ u.text
  | .send u => "SEND " ++ u.text
  | .sendFw str => "SENDFW " ++ hexList str
  | .sendPv str => "SENDPV " ++ hexList str
  | .sendLog str => "SENDLOG " ++ hexList str
  | .rxByte b => "RXBYTE " ++ immediate b
  | .init => "INIT"
  | .bind slot pin rev => "BIND " ++ immediate slot ++ ", " ++ immediate pin ++ ", " ++ immediate rev
  | .clear => "CLEAR"
  | .rbind slot packed => "RBIND " ++ immediate slot ++ ", " ++ immediate packed
  | .tick now => "TICK " ++ immediate now
  | .build => "BUILD"
  | .xmit packet => "XMIT " ++ immediate packet

/-- The pseudo-instructions of 30_encoding.md R72. -/
inductive Pseudo where
  /-- ADDFIXED u, v, w. -/
  | addFixed (u : CodecId) (v width : Nat)
  /-- GETFIXED u, w. -/
  | getFixed (u : CodecId) (width : Nat)
  /-- ADDCHAR u, v. -/
  | addChar (u : CodecId) (v : Byte)
  /-- ADDSHORT u, v. -/
  | addShort (u : CodecId) (v : Half)
  /-- ADDINT u, v. -/
  | addInt (u : CodecId) (v : Word)
  /-- GETCHAR u. -/
  | getChar (u : CodecId)
  /-- GETSHORT u. -/
  | getShort (u : CodecId)
  /-- GETINT u. -/
  | getInt (u : CodecId)
  /-- MSG u, T and the commands of the chain. -/
  | msg (u : CodecId) (t : Byte) (fields : List Instr)
  /-- RXFRAME and its bytes. -/
  | rxFrame (bytes : List Byte)
deriving DecidableEq, Repr

/-- The commands a pseudo-instruction stands for; none where the assembler refuses it, which is a width other than 1, 2
and 4 (30_encoding.md R72), or a value wider than its immediate (log 19). -/
def Pseudo.expand : Pseudo → Option (List Instr)
  | .addFixed u v 1 => if v < 2 ^ 8 then some [.addFixedB u (BitVec.ofNat 8 v)] else none
  | .addFixed u v 2 => if v < 2 ^ 16 then some [.addFixedH u (BitVec.ofNat 16 v)] else none
  | .addFixed u v 4 => if v < 2 ^ 32 then some [.addFixedW u (BitVec.ofNat 32 v)] else none
  | .addFixed _ _ _ => none
  | .getFixed u 1 => some [.getFixedB u]
  | .getFixed u 2 => some [.getFixedH u]
  | .getFixed u 4 => some [.getFixedW u]
  | .getFixed _ _ => none
  | .addChar u v => some [.addFixedB u v]
  | .addShort u v => some [.addFixedH u v]
  | .addInt u v => some [.addFixedW u v]
  | .getChar u => some [.getFixedB u]
  | .getShort u => some [.getFixedH u]
  | .getInt u => some [.getFixedW u]
  | .msg u t fields => some (.reset u :: .setType u t :: fields)
  | .rxFrame bytes => some (bytes.map .rxByte)

end Sys2Proof
end

