-- ==== Sys2Proof/Tests/Slice0.lean ====
section
/-! SUPPORT. Tests. Expected words come from spec/30_encoding.md R63 to R66, expected results from the vectors of
spec/95_test_vectors.md, whose number stands beside each test. At the end, a witness for the hypotheses of every
statement that has some. -/

namespace Sys2Proof.Tests

open Sys2Proof.Machine

/-! ### Well-formedness: the counts that no encoding can hold -/

theorem test_wf_addBytes_longest : (Instr.addBytes .tx (List.replicate 255 0)).wf = true := by
  simp only [Instr.wf, fitsFB, List.length_replicate]; decide
theorem test_wf_addBytes_too_long : (Instr.addBytes .tx (List.replicate 256 0)).wf = false := by
  simp only [Instr.wf, fitsFB, List.length_replicate]; decide
/-- The check on the count of format FS refuses every length above 65535. -/
theorem wf_string_long {n : Nat} (h : 65535 < n) :
    (Instr.addString .rx (List.replicate n 0)).wf = false ∧ (Instr.sendFw (List.replicate n 0)).wf = false ∧
      (Instr.sendPv (List.replicate n 0)).wf = false ∧ (Instr.sendLog (List.replicate n 0)).wf = false := by
  simpa [Instr.wf] using h

theorem test_wf_string_too_long :
    (Instr.addString .rx (List.replicate 65536 0)).wf = false ∧
      (Instr.sendFw (List.replicate 65536 0)).wf = false ∧
      (Instr.sendPv (List.replicate 65536 0)).wf = false ∧
      (Instr.sendLog (List.replicate 65536 0)).wf = false := wf_string_long (by omega)

/-! ### Decoding: one written word for each constructor (30_encoding.md R63 to R66) -/

theorem test_decode_reset : decode [0b01000000#8] = .command (.reset .rx) [] := by decide
theorem test_decode_setType : decode [0b00000001#8, 0xFF] = .command (.setType .tx 0xFF) [] := by decide
theorem test_decode_getType : decode [0b01000010#8] = .command (.getType .rx) [] := by decide
theorem test_decode_getLength : decode [0b00000011#8, 0x55] = .command (.getLength .tx) [0x55] := by decide
theorem test_decode_addFixedB : decode [0b00000100#8, 0x11] = .command (.addFixedB .tx 0x11) [] := by decide
theorem test_decode_addFixedH : decode [0b00000101#8, 0x34, 0x12] = .command (.addFixedH .tx 0x1234) [] := by decide
theorem test_decode_addFixedW :
    decode [0b01000110#8, 0x78, 0x56, 0x34, 0x12] = .command (.addFixedW .rx 0x12345678) [] := by decide
theorem test_decode_getFixedB : decode [0b00001000#8] = .command (.getFixedB .tx) [] := by decide
theorem test_decode_getFixedH : decode [0b01001001#8] = .command (.getFixedH .rx) [] := by decide
theorem test_decode_getFixedW : decode [0b01001010#8] = .command (.getFixedW .rx) [] := by decide
theorem test_decode_addBytes :
    decode [0b00001100#8, 0x02, 0xAA, 0xBB, 0x01] = .command (.addBytes .tx [0xAA, 0xBB]) [0x01] := by decide
theorem test_decode_getBytes : decode [0b01001101#8, 0x03] = .command (.getBytes .rx 3) [] := by decide
theorem test_decode_addString :
    decode [0b00001110#8, 0x02, 0x00, 0x68, 0x69] = .command (.addString .tx [0x68, 0x69]) [] := by decide
theorem test_decode_getString : decode [0b01001111#8] = .command (.getString .rx) [] := by decide
theorem test_decode_send : decode [0b00010000#8] = .command (.send .tx) [] := by decide
theorem test_decode_sendFw :
    decode [0b10000000#8, 0x03, 0x00, 0x31, 0x2E, 0x30] = .command (.sendFw [0x31, 0x2E, 0x30]) [] := by decide
theorem test_decode_sendPv : decode [0b10000001#8, 0x00, 0x00] = .command (.sendPv []) [] := by decide
theorem test_decode_sendLog :
    decode [0b10000010#8, 0x02, 0x00, 0x6F, 0x6B] = .command (.sendLog [0x6F, 0x6B]) [] := by decide
theorem test_decode_rxByte : decode [0b10000011#8, 0x24] = .command (.rxByte 0x24) [] := by decide
theorem test_decode_init : decode [0b10010000#8] = .command .init [] := by decide
theorem test_decode_bind : decode [0b10010001#8, 0x02, 0x7E, 0x01, 0x00] = .command (.bind 2 0x017E 0) [] := by decide
theorem test_decode_clear : decode [0b10010010#8] = .command .clear [] := by decide
theorem test_decode_rbind : decode [0b10010011#8, 0x00, 0x84] = .command (.rbind 0 0x84) [] := by decide
theorem test_decode_tick :
    decode [0b10100000#8, 0x04, 0x03, 0x02, 0x01] = .command (.tick 0x01020304) [] := by decide
theorem test_decode_build : decode [0b10100001#8] = .command .build [] := by decide
theorem test_decode_xmit :
    decode [0b10100010#8, 0x01, 0x80, 0, 0, 0, 0, 0, 0xFF] = .command (.xmit 0xFF00000000008001) [] := by decide

/-- A table word's later bytes count on from bit 8; bytes the table gives no bits are zeros. -/
theorem test_decodeTableWord :
    decodeTableWord 24 0x00020E = some (.addString .tx [0, 0]) ∧ decodeTableWord 24 0x841093 = some (.rbind 0x10 0x84) ∧
      decodeTableWord 8 0x07 = none := by decide

/-- L2-111, L2-112: a command cut short, with the offset where the bytes ended. -/
theorem test_decode_incomplete :
    decode [0x0E, 0x02, 0x00, 0x68] = .incomplete 4 ∧ decode [0x91, 0x00, 0x03] = .incomplete 3 := by decide

/-- 30_encoding.md R71 and R72, their own examples. -/
theorem test_assembler :
    (Instr.addBytes .tx [0x01, 0x02, 0x03]).text = "ADDBYTES TX, [01 02 03]" ∧
      (Instr.bind 0 3 1).text = "BIND 0, 3, 1" ∧ (Instr.addFixedW .tx 1234).text = "ADDFIXED.W TX, 1234" := by decide
theorem test_pseudo :
    (Pseudo.addFixed .tx 1234 4).expand = some [.addFixedW .tx 1234] ∧ (Pseudo.addFixed .tx 1 3).expand = none ∧
      (Pseudo.getShort .rx).expand = some [.getFixedH .rx] ∧
      (Pseudo.rxFrame [0x24, 0x24]).expand = some [.rxByte 0x24, .rxByte 0x24] := by decide

/-- The numbers of 60_exceptions.md R123. -/
theorem test_codes :
    (Result.ok .unit).code = 0 ∧ [Err.bufferOverflow, .truncatedMessage, .invalidIndex, .invalidPin, .persistenceFailure,
      .transmitFailure, .illegalCommand, .malformedFrame, .rxBusy].map (fun e => (Result.err e).code) =
      [1, 2, 3, 4, 5, 6, 7, 8, 9] := by decide

/-! ### Single steps -/

/-- Parameters with values of the test's own. -/
def params (layout : BindingByteLayout) : Params := ⟨1000, 77, 0xA1, 0xA2, 0xA3, layout⟩

/-- A machine after power-on with the command bytes as the host's stream. -/
def machine (commands : List Byte) : State :=
  { State.reset with params := params .pinLow, commands := commands }

/-- The machine with a TX message: buffer bytes from offset 2 on, and the cursor. -/
def withTx (s : State) (bytes : List Byte) (cursor : Nat) : State :=
  { s with tx := ⟨Memory.writeBytes 2 bytes [], cursor⟩ }

/-- The machine with a received frame: length byte, type byte, fields, and the cursor. -/
def withFrame (s : State) (bytes : List Byte) (cursor : Nat) : State :=
  { s with rx := ⟨Memory.writeBytes 2 bytes [], cursor⟩, rxState := .ready, rxCount := bytes.length + 2 }

/-- The machine with slot 0 bound. -/
def withSlot0 (s : State) (pin : Fin 127) (reversed : Bool) : State :=
  { s with slots := s.slots.set 0 ⟨some pin, reversed⟩ }

/-- The machine with the coming answers of storage reads, storage writes, pin reads and bus writes. -/
def withAnswers (s : State) (reads : List Bool) (writes : List WriteAnswer) (pins bus : List Bool) : State :=
  { s with env := ⟨reads, writes, pins, bus, 0⟩ }

/-- What one step shows, if it goes on. -/
def after {α : Type} (s : State) (f : State → α) : Option α :=
  match step s with
  | .next n => some (f n)
  | _ => none

/-- L2-1. -/
theorem test_reset_tx : after (withTx (machine [0x00]) [8, 5, 0xD2] 11)
    (fun n => (n.results, n.tx.cursor, n.byte .tx 2, n.byte .tx 3)) = some ([.ok .unit], 4, 1, 5) := by decide
/-- L2-2. -/
theorem test_reset_rx : after (withFrame (machine [0x40]) [8, 5, 0xD2, 4, 0, 0, 2, 0x68, 0x69] 11)
    (fun n => (n.rxState, n.rxCount, n.rx.cursor, n.byte .rx 2)) = some (.hunt0, 0, 4, 1) := by decide
/-- L2-3. -/
theorem test_setType : after (withTx (machine [0x01, 0xFF]) [3, 0, 1, 2] 6)
    (fun n => (n.byte .tx 3, n.tx.cursor, n.byte .tx 2)) = some (0xFF, 6, 3) := by decide
/-- L2-4. -/
theorem test_setType_rx : after (machine [0x41, 5]) (·.results) = some [.err .illegalCommand] := by decide
/-- L2-7. -/
theorem test_getType_tx : after (withTx (machine [0x02]) [1, 5] 4) (·.results) = some [.ok (.byte 5)] := by decide
/-- L2-5. -/
theorem test_getType_rx_hunting : after (machine [0x42]) (·.results) = some [.err .truncatedMessage] := by decide
/-- L2-9. -/
theorem test_getLength : after (machine [0x43]) (·.results) = some [.ok (.byte 1)] := by decide
/-- L2-12. -/
theorem test_addFixedB_last : after (withTx (machine [0x04, 0x11]) [0xFC] 255)
    (fun n => (n.byte .tx 255, n.tx.cursor, n.byte .tx 2)) = some (0x11, 256, 0xFD) := by decide
/-- L2-14. -/
theorem test_addFixedH : after (machine [0x05, 0x34, 0x12])
    (fun n => (n.bytes .tx 4 2, n.tx.cursor, n.byte .tx 2)) = some ([0x34, 0x12], 6, 3) := by decide
/-- L2-16. -/
theorem test_addFixedH_overflow : after (withTx (machine [0x05, 0xEF, 0xBE]) [0xFC] 255)
    (fun n => (n.results, n.tx)) = some ([.err .bufferOverflow], ⟨[(2, 0xFC)], 255⟩) := by decide
/-- L2-17. -/
theorem test_addFixedW : after (machine [0x06, 0xD2, 0x04, 0x00, 0x00])
    (fun n => (n.bytes .tx 4 4, n.tx.cursor, n.byte .tx 2)) = some ([0xD2, 4, 0, 0], 8, 5) := by decide
/-- L2-21, L2-22. -/
theorem test_getFixedB : after (withFrame (machine [0x48]) [2, 9, 0x7F] 4)
    (fun n => (n.results, n.rx.cursor, n.remaining .rx)) = some ([.ok (.byte 0x7F)], 5, 0) := by decide
/-- L2-25, the second read. -/
theorem test_getFixedH : after (withFrame (machine [0x49]) [5, 1, 0x78, 0x56, 0x34, 0x12] 6)
    (fun n => (n.results, n.rx.cursor)) = some ([.ok (.half 0x1234)], 8) := by decide
/-- L2-23. -/
theorem test_getFixedH_short : after (withFrame (machine [0x49]) [2, 9, 0x7F] 4)
    (fun n => (n.results, n.rx.cursor)) = some ([.err .truncatedMessage], 4) := by decide
/-- L2-25, as one word. -/
theorem test_getFixedW : after (withFrame (machine [0x4A]) [5, 1, 0x78, 0x56, 0x34, 0x12] 4)
    (fun n => (n.results, n.rx.cursor)) = some ([.ok (.word 0x12345678)], 8) := by decide
/-- L2-29. -/
theorem test_addBytes : after (machine [0x0C, 0x02, 0xAA, 0xBB])
    (fun n => (n.bytes .tx 4 2, n.tx.cursor, n.byte .tx 2)) = some ([0xAA, 0xBB], 6, 3) := by decide
/-- L2-33. -/
theorem test_getBytes : after (withFrame (machine [0x4D, 0x03]) [4, 7, 2, 0x68, 0x69] 4)
    (fun n => (n.results, n.rx.cursor)) = some ([.ok (.bytes [2, 0x68, 0x69])], 7) := by decide
/-- L2-35. -/
theorem test_getBytes_none : after (machine [0x0D, 0x00]) (·.results) = some [.ok (.bytes [])] := by decide
/-- L2-38. -/
theorem test_addString : after (withTx (machine [0x0E, 0x02, 0x00, 0x68, 0x69]) [5] 8)
    (fun n => (n.bytes .tx 8 3, n.tx.cursor, n.byte .tx 2)) = some ([2, 0x68, 0x69], 11, 8) := by decide
/-- L1-7. -/
theorem test_addString_overflow : after (withTx (machine [0x0E, 4, 0, 0x61, 0x62, 0x63, 0x64]) [0xF9] 252)
    (fun n => (n.results, n.tx)) = some ([.err .bufferOverflow], ⟨[(2, 0xF9)], 252⟩) := by decide
/-- L2-44. -/
theorem test_getString : after (withFrame (machine [0x4F]) [4, 7, 2, 0x68, 0x69] 4)
    (fun n => (n.results, n.rx.cursor)) = some ([.ok (.bytes [0x68, 0x69])], 7) := by decide
/-- L2-45. -/
theorem test_getString_short : after (withFrame (machine [0x4F]) [4, 7, 5, 0x68, 0x69] 4)
    (fun n => (n.results, n.rx.cursor)) = some ([.err .truncatedMessage], 4) := by decide
/-- L1-8. -/
theorem test_send : after (withTx (machine [0x10]) [8, 5, 0xD2, 4, 0, 0, 2, 0x68, 0x69] 11) (·.effects) =
    some [.transportWrite [0x24, 0x24, 8, 5, 0xD2, 4, 0, 0, 2, 0x68, 0x69]] := by decide
/-- L2-52. -/
theorem test_sendFw : after (machine [0x80, 3, 0, 0x31, 0x2E, 0x30])
    (fun n => (n.effects, n.tx.cursor, n.bytes .tx 2 6)) =
    some ([.transportWrite [0x24, 0x24, 5, 0xA1, 3, 0x31, 0x2E, 0x30]], 4, [1, 0xA1, 3, 0x31, 0x2E, 0x30]) := by decide
/-- L2-53. -/
theorem test_sendPv : after (machine [0x81, 0, 0]) (fun n => (n.effects, n.bytes .tx 2 3)) =
    some ([.transportWrite [0x24, 0x24, 2, 0xA2, 0]], [1, 0xA2, 0]) := by decide
/-- L2-54. -/
theorem test_sendLog : after (withTx (machine [0x82, 2, 0, 0x6F, 0x6B]) [9, 9, 9] 12)
    (fun n => (n.effects, n.bytes .tx 2 2)) =
    some ([.transportWrite [0x24, 0x24, 4, 0xA3, 2, 0x6F, 0x6B]], [1, 0xA3]) := by decide
/-- L2-59, the last byte. -/
theorem test_rxByte_completes :
    after { machine [0x83, 7] with rx := ⟨[(2, 1)], 4⟩, rxState := .body, rxCount := 3 }
      (fun n => (n.results, n.rxState, n.rxCount, n.byte .rx 3)) = some ([.ok (.complete 7)], .ready, 4, 7) := by decide
/-- L2-61. -/
theorem test_rxByte_bad_length : after { machine [0x83, 0xFE] with rxState := .length }
    (fun n => (n.results, n.rxState)) = some ([.err .malformedFrame], .hunt0) := by decide
/-- L2-87. -/
theorem test_init : after
    { withAnswers (machine [0x90]) [true] [] [] [] with
      store := Memory.writeBytes 1000 (0x84 :: List.replicate 14 0 ++ [0x7F]) [] }
    (fun n => (n.effects, n.slots[0], n.slots[1], n.slots[15])) =
    some ([.storageRead 1000 16, .configureInput 3, .configureInput 126],
      ⟨some 3, true⟩, ⟨none, false⟩, ⟨some 126, false⟩) := by decide
/-- L2-91, under the layout PIN_HIGH. -/
theorem test_init_pinHigh : after
    { withAnswers (machine [0x90]) [true] [] [] [] with
      params := params .pinHigh, store := Memory.writeBytes 1000 (0x09 :: List.replicate 15 0) [] }
    (fun n => (n.effects, n.slots[0])) =
    some ([.storageRead 1000 16, .configureInput 3], ⟨some 3, true⟩) := by decide
/-- L2-68. -/
theorem test_bind : after (withAnswers (machine [0x91, 0, 3, 0, 1]) [] [.ok] [] [])
    (fun n => (n.results, n.effects, n.slots[0])) =
    some ([.ok .unit], [.storageWrite 1000 (0x84 :: List.replicate 15 0), .configureInput 3], ⟨some 3, true⟩) := by
  decide
/-- L2-78. -/
theorem test_bind_write_fails : after
    (withAnswers (machine [0x91, 2, 5, 0, 0]) [] [.fail (Vector.replicate 16 0xEE)] [] [])
    (fun n => (n.results, n.effects, n.slots[2], n.storeByte 1015)) =
    some ([.err .persistenceFailure], [.storageWrite 1000 ([0, 0, 6] ++ List.replicate 13 0)], ⟨some 5, false⟩, 0xEE) := by
  decide
/-- L2-85. -/
theorem test_clear : after (withAnswers (withSlot0 (machine [0x92]) 3 true) [] [.ok] [] [])
    (fun n => (n.effects, n.slots[0])) =
    some ([.storageWrite 1000 (List.replicate 16 0)], ⟨none, false⟩) := by decide
/-- L2-84, under the layout PIN_HIGH. -/
theorem test_rbind_pinHigh : after
    { withAnswers (machine [0x93, 0, 0x84]) [] [.ok] [] [] with params := params .pinHigh }
    (fun n => (n.effects, n.slots[0])) =
    some ([.storageWrite 1000 (0x84 :: List.replicate 15 0), .configureInput 65], ⟨some 65, false⟩) := by decide
/-- L2-82. -/
theorem test_rbind_unbound : after (machine [0x93, 0, 0x80]) (·.results) = some [.err .invalidPin] := by decide
/-- L2-101, across the wrap of the clock. -/
theorem test_tick_wrap : after
    { withAnswers (machine [0xA0, 0x0A, 0, 0, 0]) [] [] [] [true] with lastSentMs := 0xFFFFFFF6 }
    (fun n => (n.results, n.effects, n.lastSentMs)) =
    some ([.ok .sent], [.busWritePacket 77 [0, 0, 0, 0, 0, 0, 0, 0] 8 2], 0x0A) := by decide
/-- L2-104. -/
theorem test_tick_bus_fails : after (withAnswers (machine [0xA0, 0x14, 0, 0, 0]) [] [] [] [false])
    (fun n => (n.results, n.lastSentMs)) = some ([.err .transmitFailure], 20) := by decide
/-- L1-5a. -/
theorem test_build : after (withAnswers (withSlot0 (machine [0xA1]) 3 true) [] [] [false] [])
    (fun n => (n.results, n.effects)) = some ([.ok (.packet 1)], [.readDigital 3]) := by decide
/-- L2-92. -/
theorem test_build_order : after
    { withAnswers (machine [0xA1]) [] [] [true, true, true] [] with
      slots := ((machine []).slots.set 0 ⟨some 3, false⟩ |>.set 1 ⟨some 3, true⟩ |>.set 15 ⟨some 126, false⟩) }
    (fun n => (n.results, n.effects)) =
    some ([.ok (.packet 0x8001)], [.readDigital 3, .readDigital 3, .readDigital 126]) := by decide
/-- L2-95. -/
theorem test_xmit : after (withAnswers (machine [0xA2, 0, 0, 0, 0, 0, 0, 0xFF, 0xFF]) [] [] [] [true])
    (·.effects) = some [.busWritePacket 77 [0, 0, 0, 0, 0, 0, 0xFF, 0xFF] 8 2] := by decide
/-- L2-96. -/
theorem test_xmit_fails : after (withAnswers (machine [0xA2, 1, 0, 0, 0, 0, 0, 0, 0]) [] [] [] [false])
    (fun n => (n.results, n.effects)) =
    some ([.err .transmitFailure], [.busWritePacket 77 [1, 0, 0, 0, 0, 0, 0, 0] 8 2, .log .transmitFailure]) := by decide
/-- L2-109, the first command. -/
theorem test_reserved : after (machine [0xFF, 0x00]) (fun n => (n.results, n.commands)) =
    some ([.err .illegalCommand], [0x00]) := by decide
/-- L2-111. -/
theorem test_step_refuses_cut_command :
    step (machine [0x0E, 0x02, 0x00, 0x68]) = .refused (.incompleteCommand 4) := rfl
/-- The command of a table word is the next one, before any that waits. -/
theorem test_withFetchWord : after ((machine [0x10]).withFetchWord 16 0x0501)
    (fun n => (n.byte .tx 3, n.commands)) = some (5, [0x10]) := by decide

/-! ### Witnesses: the hypotheses of each statement can be met, each clause at a boundary value -/

/-- A machine in the middle of the body of a frame of length 2. -/
def inBody : State := { machine [] with rx := ⟨[(2, 2)], 4⟩, rxState := .body, rxCount := 4 }

/-- A machine with a complete frame: a word, then a string of two bytes. -/
def ready : State := withFrame (machine [0x4A]) [8, 5, 0xD2, 4, 0, 0, 2, 0x68, 0x69] 4

/-- A TX message with the cursor at a given place. -/
def txAt (cursor : Nat) : State := withTx (machine []) [BitVec.ofNat 8 (cursor - 3)] cursor

theorem ready_inv : StateInv ready :=
  ⟨⟨by decide, by decide, by decide⟩, ⟨by decide, by decide, by decide, by decide, by decide⟩, by unfold TxLengthHolds; decide,
    by change _ ∧ _ ∧ _ ∧ _; decide, by unfold TypesDistinct; decide⟩

theorem inBody_inv : StateInv inBody :=
  ⟨⟨by decide, by decide, by decide⟩, ⟨by decide, by decide, by decide, by decide, by decide⟩, by unfold TxLengthHolds; decide,
    by change _ ∧ _ ∧ _ ∧ _ ∧ _; decide, by unfold TypesDistinct; decide⟩

theorem txAt_cursors (c : Nat) (h : 4 ≤ c ∧ c ≤ 256) : CursorsInRange (txAt c) :=
  ⟨h.1, h.2, Nat.le_refl 4, (by decide : 4 ≤ 256), (by decide : 0 ≤ 256)⟩

theorem test_witness_SentinelIsHardwired : (0 : Nat) < 2 ∧ (1 : Nat) < 2 := by decide
theorem test_witness_DecodeOfEncode : (Instr.addBytes .rx (List.replicate 255 7)).wf = true := by
  simp only [Instr.wf, fitsFB, List.length_replicate]; decide
theorem test_witness_EncodeOfDecode :
    decode [0x4C, 1, 0xAA, 0x55] = .command (.addBytes .rx [0xAA]) [0x55] := by decide
/-- The first and the last opcode of every reserved range (30_encoding.md R69), and a stream that holds one. -/
theorem test_witness_ReservedOpcodes :
    (∀ op ∈ [0x07#8, 0x0B, 0x11, 0x3F, 0x47, 0x4B, 0x51, 0x7F, 0x84, 0x8F, 0x94, 0x9F, 0xA3, 0xFF],
      decode [op] = .reserved op []) ∧ (machine [0xA3]).commands = [0xA3] := by decide
theorem test_witness_TruncatedCommandRefused :
    (Instr.bind 0 3 1).wf = true ∧ (machine [0x91, 0, 3, 0]).commands ++ [1] = encode (.bind 0 3 1) ∧
      (machine []).commands ++ [0x92] = encode .clear := by decide
theorem test_witness_DecodeTakesCommandLength :
    decode [0x0E, 1, 0, 0x61, 0x10] = .command (.addString .tx [0x61]) [0x10] := by decide
theorem test_witness_StepRunsDecodedCommand :
    decode (machine [0x4D, 0, 0x92]).commands = .command (.getBytes .rx 0) [0x92] := by decide
theorem test_witness_RxRefusesMutatingFunctions :
    (Instr.setType .rx 0).mutates = some .rx ∧ (Instr.addFixedB .rx 0).mutates = some .rx ∧
      (Instr.addFixedH .rx 0).mutates = some .rx ∧ (Instr.addFixedW .rx 0).mutates = some .rx ∧
      (Instr.addBytes .rx []).mutates = some .rx ∧ (Instr.addString .rx []).mutates = some .rx ∧
      (Instr.send .rx).mutates = some .rx := by decide
theorem test_witness_GetTypeReturnsTypeByte : ready.rxState = .ready ∧ inBody.rxState ≠ .ready := by decide
theorem test_witness_AddFixedAppendsLittleEndian :
    CursorsInRange (txAt 255) ∧ (txAt 255).tx.cursor + 1 ≤ 256 ∧
    CursorsInRange (txAt 254) ∧ (txAt 254).tx.cursor + 2 ≤ 256 ∧
    CursorsInRange (txAt 252) ∧ (txAt 252).tx.cursor + 4 ≤ 256 :=
  ⟨txAt_cursors _ (by omega), by decide, txAt_cursors _ (by omega), by decide, txAt_cursors _ (by omega), by decide⟩
theorem test_witness_AddBytesAppendsData :
    CursorsInRange (txAt 4) ∧ (txAt 4).tx.cursor + (List.replicate 252 0#8).length ≤ 256 ∧
    CursorsInRange (txAt 256) ∧ (txAt 256).tx.cursor + ([] : List Byte).length ≤ 256 :=
  ⟨txAt_cursors _ (by omega), by rw [List.length_replicate]; decide, txAt_cursors _ (by omega), by decide⟩
theorem test_witness_AddStringAppendsPrefixAndBody :
    CursorsInRange (txAt 4) ∧ (txAt 4).tx.cursor + 1 + min (List.replicate 251 0#8).length 255 ≤ 256 :=
  ⟨txAt_cursors _ (by omega), by rw [List.length_replicate]; decide⟩
theorem test_witness_AppendOverflowChangesNothing :
    (txAt 256).tx.cursor + 1 > 256 ∧ (txAt 255).tx.cursor + 2 > 256 ∧ (txAt 253).tx.cursor + 4 > 256 ∧
      (txAt 254).tx.cursor + [1#8, 2, 3].length > 256 ∧
      (txAt 252).tx.cursor + (1 + min [1#8, 2, 3, 4].length 255) > 256 := by decide
theorem test_witness_GetFixedReturnsLittleEndian :
    ready.rxState = .ready ∧ (ready.byte .rx 2).toNat ≤ 253 ∧ ready.rx.cursor + 4 ≤ (ready.byte .rx 2).toNat + 3 ∧
      (withFrame (machine []) [2, 9, 0x7F] 4).rx.cursor + 1 = ((withFrame (machine []) [2, 9, 0x7F] 4).byte .rx 2).toNat + 3 ∧
      (withFrame (machine []) [3, 9, 1, 2] 4).rx.cursor + 2 = ((withFrame (machine []) [3, 9, 1, 2] 4).byte .rx 2).toNat + 3 ∧
      (withFrame (machine []) [5, 9, 1, 2, 3, 4] 4).rx.cursor + 4 =
        ((withFrame (machine []) [5, 9, 1, 2, 3, 4] 4).byte .rx 2).toNat + 3 := by decide
theorem test_witness_GetBytesReturnsBytes :
    ready.rxState = .ready ∧ (ready.byte .rx 2).toNat ≤ 253 ∧
      ready.rx.cursor + (7#8).toNat = (ready.byte .rx 2).toNat + 3 := by decide
theorem test_witness_GetStringReturnsBody :
    let s := withFrame (machine []) [4, 7, 2, 0x68, 0x69] 4
    s.rxState = .ready ∧ (s.byte .rx 2).toNat ≤ 253 ∧
      s.rx.cursor + (1 + (s.byte .rx s.rx.cursor).toNat) = (s.byte .rx 2).toNat + 3 := by decide
theorem test_witness_ShortReadsAreTruncated :
    let s := withFrame (machine []) [4, 7, 3, 0x68, 0x69] 4
    let left (c : Nat) := (s.byte .rx 2).toNat + 3 - c
    s.rxState = .ready ∧ left 7 < 1 ∧ left 6 < 2 ∧ left 4 < 4 ∧ left 4 < (4#8).toNat ∧
      (s.byte .rx 2).toNat ≤ 253 ∧ 1 ≤ left 4 ∧ left 4 < 1 + (s.byte .rx s.rx.cursor).toNat := by decide
theorem test_witness_NoFrameNoRead : (CodecId.tx = .tx ∨ ready.rxState ≠ .ready) ∧
    (CodecId.rx = .tx ∨ inBody.rxState ≠ .ready) ∧ 1#8 ≠ 0#8 := by decide
theorem test_witness_SendWritesFrame : ((txAt 256).byte .tx 2).toNat = 253 := by decide
theorem test_witness_SendersSendOneFrame : (List.replicate 251 0x61#8).length ≤ 251 := by
  rw [List.length_replicate]
theorem test_witness_SenderOverflowSendsNothing : 252 ≤ (List.replicate 252 0x61#8).length := by
  rw [List.length_replicate]
theorem test_witness_RxByteHuntsAndRefuses : (machine []).rxState = .hunt0 ∧
    ({ machine [] with rxState := .hunt1 } : State).rxState = .hunt1 ∧ ready.rxState = .ready := by decide
theorem test_witness_RxByteTakesLength : ({ machine [] with rxState := .length } : State).rxState = .length ∧
    253 < (254#8).toNat ∧ 1 ≤ (1#8).toNat ∧ (253#8).toNat ≤ 253 := by decide
/-- A body that the next byte completes, and one that it does not. -/
theorem test_witness_RxByteStoresBody :
    inBody.rxState = .body ∧ 3 ≤ inBody.rxCount ∧ inBody.rxCount ≤ 255 ∧
      inBody.rxCount + 1 = (inBody.byte .rx 2).toNat + 3 ∧
      ({ inBody with rxCount := 3 } : State).rxCount + 1 ≠ (({ inBody with rxCount := 3 } : State).byte .rx 2).toNat + 3 := by
  decide
theorem test_witness_InitLoadsTable :
    (withAnswers (machine []) [true] [] [] []).env.nextStorageRead.1 = true ∧
      (withAnswers (machine []) [false] [] [] []).env.nextStorageRead.1 = false := by decide
theorem test_witness_BindUpdatesPersistsConfigures :
    (machine []).slots[(15 : Fin 16)] ≠ ⟨some 126, true⟩ ∧
      (withAnswers (machine []) [] [.ok] [] []).env.nextStorageWrite.1 = .ok ∧
      (withAnswers (machine []) [] [.fail (Vector.replicate 16 1)] [] []).env.nextStorageWrite.1 =
        .fail (Vector.replicate 16 1) := by decide
theorem test_witness_BindOfHeldValueIsNoOp :
    (withSlot0 (machine []) 126 true).slots[(0 : Fin 16)] = ⟨some 126, true⟩ := by decide
theorem test_witness_BindRejectsBadOperands :
    1 < (2#8).toNat ∧ (1#8).toNat ≤ 1 ∧ 15 < (16#8).toNat ∧ (15#8).toNat ≤ 15 ∧ 126 < (127#16).toNat := by decide
theorem test_witness_RbindActsAsBind :
    15 < (16#8).toNat ∧ (15#8).toNat ≤ 15 ∧ (unpackSlot .pinLow 0x80).pin = none ∧
      unpackSlot .pinLow 0xFF = ⟨some 126, true⟩ ∧ unpackSlot .pinHigh 0xFF = ⟨some 126, true⟩ := by decide
theorem test_witness_SecondBindWritesNothing :
    let s := withAnswers (machine []) [] [.ok] [] []
    bindTarget s.params.layout (.bind 0 3 1) = some (0, ⟨some 3, true⟩) ∧
      bindTarget s.params.layout (.rbind 0 0x84) = some (0, ⟨some 3, true⟩) ∧
      ∃ n m, exec (.bind 0 3 1) s = .next n ∧ n.results = s.results ++ [.ok .unit] ∧ exec (.rbind 0 0x84) n = .next m :=
  ⟨by decide, by decide, _, _, rfl, by decide, rfl⟩
theorem test_witness_PersistedTableReloads :
    let s := withAnswers (machine []) [true] [.ok] [] []
    ∃ n m, exec (.bind 0 3 1) s = .next n ∧ n.results = s.results ++ [.ok .unit] ∧
      n.storageWrites = s.storageWrites + 1 ∧ exec .init n = .next m ∧ m.results = n.results ++ [.ok .unit] :=
  ⟨_, _, rfl, by decide, by decide, rfl, by decide⟩
theorem test_witness_TickFollowsPeriod :
    (19#32 - (machine []).lastSentMs).toNat = 19 ∧ (20#32 - (machine []).lastSentMs).toNat = 20 := by decide
/-- The tick number 0 sends, and there is no earlier one. -/
theorem test_witness_TickCadence :
    let s := withAnswers (machine []) [] [] [] [true]
    ∃ before after, runAll [] s = .next before ∧ exec (.tick 20) before = .next after ∧
      after.packetsSent = before.packetsSent + 1 :=
  ⟨_, _, rfl, rfl, by decide⟩
/-- One tick 19 ms after the last send, and the next 5 ms later: Δ = 19. -/
theorem test_witness_SendSpacing :
    let s := withAnswers (machine []) [] [] [] [true]
    (∀ d ∈ 5 :: [19], d ≤ 19) ∧ ∃ before after, runAll [.tick (s.lastSentMs + 19)] s = .next before ∧
      before.packetsSent = s.packetsSent ∧ exec (.tick (s.lastSentMs + 19 + 5)) before = .next after ∧
      after.packetsSent = before.packetsSent + 1 :=
  ⟨by decide, _, _, rfl, by decide, rfl, by decide⟩
theorem test_witness_OneResultPerCommand : ∃ n, exec .clear (machine []) = .next n := ⟨_, rfl⟩
theorem test_witness_WritersOfEachElement :
    StateInv ready ∧ ∃ n, exec (.getFixedW .rx) ready = .next n ∧ n.rx.cursor ≠ ready.rx.cursor :=
  ⟨ready_inv, _, rfl, by decide⟩
theorem test_witness_ErrorsArePrecise :
    let s := withAnswers (machine []) [] [] [] [false]
    ∃ n, exec (.xmit 1) s = .next n ∧ n.results = s.results ++ [.err .transmitFailure] ∧
      keepsEarlierWrite .transmitFailure (.xmit 1) = false :=
  ⟨_, rfl, by decide, by decide⟩
theorem test_witness_ErrorsComeFromTheirCommands :
    ∃ n, exec (.rxByte 0) ready = .next n ∧ n.results = ready.results ++ [.err .rxBusy] := ⟨_, rfl, by decide⟩
theorem test_witness_EveryCommandCompletes : StateInv inBody := inBody_inv
theorem test_witness_StepKeepsInvariant : StateInv ready ∧ ∃ n, step ready = .next n := ⟨ready_inv, _, rfl⟩
theorem test_witness_MessageRoundTrip :
    (machine []).rxState = .hunt0 ∧
      ([Field.fixedB 1, .fixedH 2, .fixedW 3, .string (List.replicate 244 4)].map Field.size).sum = 252 := by
  constructor
  · decide
  · simp only [List.map, Field.size, List.length_replicate]; decide

end Sys2Proof.Tests
end

section
/-! PROOF. The stages of a command: what stands while it runs, and how it ends (spec/00_scope.md R14;
spec/10_state.md R26; spec/20_memory.md R46, R50). -/

namespace Sys2Proof.Machine

/-! ### While a command runs -/

/-- `m` can stand inside a command that began in `s`: nothing is reported yet, the effects of `s` stand before those of
the command (20_memory.md R46), and the parameters and the commands to come are untouched (10_state.md R26,
20_memory.md R50). -/
structure Interim (s m : State) : Prop where
  params : m.params = s.params
  commands : m.commands = s.commands
  results : m.results = s.results
  effects : s.effects <+: m.effects

namespace Interim

variable {s m n : State}

theorem refl (s : State) : Interim s s := ⟨rfl, rfl, rfl, List.prefix_rfl⟩

/-- An update of any other field. -/
theorem keep (h : Interim s m) (hp : n.params = m.params := by rfl) (hc : n.commands = m.commands := by rfl)
    (hr : n.results = m.results := by rfl) (he : n.effects = m.effects := by rfl) : Interim s n :=
  ⟨hp.trans h.params, hc.trans h.commands, hr.trans h.results, he ▸ h.effects⟩

/-- Further effects, with an update of any other field. -/
theorem emits (h : Interim s m) (es : List Effect) (he : n.effects = m.effects ++ es := by rfl)
    (hp : n.params = m.params := by rfl) (hc : n.commands = m.commands := by rfl)
    (hr : n.results = m.results := by rfl) : Interim s n :=
  ⟨hp.trans h.params, hc.trans h.commands, hr.trans h.results, he ▸ h.effects.trans (List.prefix_append _ _)⟩

theorem setCodec (h : Interim s m) (u : CodecId) (c : Codec) : Interim s (m.setCodec u c) :=
  h.keep (by simp) (by simp) (by simp) (by simp)

theorem setByte (h : Interim s m) (u : CodecId) (a : Nat) (v : Byte) : Interim s (m.setByte u a v) :=
  h.setCodec _ _

theorem setCursor (h : Interim s m) (u : CodecId) (c : Nat) : Interim s (m.setCursor u c) :=
  h.setCodec _ _

theorem rewind (h : Interim s m) (u : CodecId) : Interim s (m.rewind u) := by
  rw [State.rewind_eq]
  exact h.setCodec _ _

theorem append (h : Interim s m) (bs : List Byte) : Interim s (m.append bs) := by
  rw [State.append_eq]
  exact h.setCodec _ _

theorem senderHeader (h : Interim s m) (t : Byte) : Interim s (m.senderHeader t) :=
  (h.rewind .tx).setByte .tx 3 t

theorem persist (h : Interim s m) : Interim s m.persist.2 := by
  rw [m.persist_spec.2]
  exact h.emits _

theorem buildPacket (h : Interim s m) : Interim s m.buildPacket.2 := by
  rw [State.buildPacket_state]
  exact h.emits _

end Interim

/-! ### How a command ends -/

/-- `n` ends a command that began in `s`: one answer, as the command's last act (00_scope.md R14). -/
def Completed (s n : State) : Prop := ∃ m r, Interim s m ∧ n = m.answer r

/-- Ending a command. -/
theorem Interim.answer {s m : State} (h : Interim s m) (r : Result) : Completed s (m.answer r) := ⟨m, r, h, rfl⟩

namespace Completed

variable {s m n : State}

/-- A command without a branch that stops ends in its one next state. -/
theorem of_next (hm : Completed s m) (h : (.next m : Outcome) = .next n) : Completed s n :=
  Host.Outcome.next.inj h ▸ hm

theorem answer (s : State) (r : Result) : Completed s (s.answer r) := (Interim.refl s).answer r

/-- An error on RX, else what the function does on TX (40_codec.md R77). -/
theorem onTx (u : CodecId) {f : State → State} (hf : Completed s (f s)) : Completed s (s.onTx u f) := by
  cases u with
  | tx => exact hf
  | rx => exact answer s _

theorem addField (s : State) (bs : List Byte) : Completed s (s.addField bs) := by
  obtain ⟨-, h⟩ | ⟨-, h⟩ := s.addField_cases bs <;> rw [h]
  · exact answer s _
  · exact ((Interim.refl s).append bs).answer _

theorem fetch {u : CodecId} {k : Nat} {value : List Byte → Value} (h : s.fetch u k value = .next n) :
    Completed s n := by
  obtain ⟨-, h⟩ | ⟨-, -, -, h⟩ | ⟨-, -, h⟩ := State.fetch_cases h
  · exact (answer s _).of_next h.symm
  · cases h
  · exact (((Interim.refl s).setCursor u _).answer _).of_next h.symm

theorem sendString (s : State) (t : Byte) (str : List Byte) : Completed s (s.sendString t str) := by
  have header := (Interim.refl s).senderHeader t
  obtain ⟨-, h⟩ | ⟨-, h⟩ := s.sendString_cases t str <;> rw [h]
  · exact (header.rewind .tx).answer _
  · exact (Interim.rewind ((header.append _).emits _) .tx).answer _

theorem transmit (h : Interim s m) (p : Packet) (v : Value) : Completed s (m.transmit p v) := by
  rw [State.transmit_spec]
  split <;> exact (h.emits _).answer _

theorem bindSlot (s : State) (i : Fin 16) (pin : Fin 127) (r : Bool) : Completed s (s.bindSlot i pin r) := by
  have stored : Interim s { s with slots := s.slots.set i ⟨some pin, r⟩ } := (Interim.refl s).keep
  obtain ⟨-, h⟩ | ⟨-, -, h⟩ | ⟨-, -, h⟩ := s.bindSlot_cases i pin r <;> rw [h]
  · exact answer s _
  · exact (stored.persist.emits _).answer _
  · exact stored.persist.answer _

/-! ### The commands with branches of their own -/

theorem reset {u : CodecId} (h : execReset u s = .next n) : Completed s n := by
  have rewound := (Interim.refl s).rewind u
  cases u with
  | tx => exact (rewound.answer _).of_next h
  | rx => exact (Interim.answer rewound.keep _).of_next h

theorem getType {u : CodecId} (h : execGetType u s = .next n) : Completed s n := by
  refine of_next ?_ h
  split <;> exact answer s _

theorem getString {u : CodecId} (h : execGetString u s = .next n) : Completed s n := by
  unfold execGetString at h
  split at h
  · exact (answer s _).of_next h
  · split at h
    · cases h
    · exact fetch h

theorem send {u : CodecId} (h : execSend u s = .next n) : Completed s n := by
  cases u with
  | rx => exact (answer s _).of_next h
  | tx =>
    simp only [execSend] at h
    split at h
    · cases h
    · exact (((Interim.refl s).emits _).answer _).of_next h

theorem rxLength (s : State) (b : Byte) : Completed s (s.rxLength b) := by
  unfold State.rxLength
  split
  · exact (Interim.refl s).keep.answer _
  · exact ((Interim.refl s).setByte .rx 2 b).keep.answer _

theorem rxBody (s : State) (b : Byte) : Completed s (s.rxBody b) := by
  have stored : Interim s { s.setByte .rx s.rxCount b with rxCount := s.rxCount + 1 } :=
    ((Interim.refl s).setByte .rx s.rxCount b).keep
  unfold State.rxBody
  simp only
  split
  · exact (stored.setCursor .rx Config.headerLen).keep.answer _
  · exact stored.answer _

theorem rxByte {b : Byte} (h : execRxByte b s = .next n) : Completed s n := by
  unfold execRxByte at h
  split at h
  · refine of_next (Interim.answer ?_ _) h
    split
    · exact (Interim.refl s).keep
    · exact .refl s
  · exact of_next (Interim.answer (Interim.refl s).keep _) h
  · exact (rxLength s b).of_next h
  · split at h
    · exact (rxBody s b).of_next h
    · cases h
  · exact (answer s _).of_next h

theorem init (h : execInit s = .next n) : Completed s n := by
  refine of_next ?_ h
  have asked : Interim s { s.emit (.storageRead s.params.tableBase Config.numSlots) with
      env := s.env.nextStorageRead.2 } := (Interim.refl s).emits _
  split
  · exact Interim.answer (asked.emits _) _
  · exact asked.answer _

theorem bind {slot : Byte} {pin : Half} {rev : Byte} (h : execBind slot pin rev s = .next n) : Completed s n := by
  refine of_next ?_ h
  split
  · exact answer s _
  · split
    · exact answer s _
    · split
      · exact answer s _
      · exact bindSlot s _ _ _

theorem clear (h : execClear s = .next n) : Completed s n := by
  have stored : Interim s { s with slots := Vector.replicate 16 Slot.unbound } := (Interim.refl s).keep
  refine of_next ?_ h
  split <;> exact stored.persist.answer _

theorem rbind {slot packed : Byte} (h : execRbind slot packed s = .next n) : Completed s n := by
  refine of_next ?_ h
  split
  · exact answer s _
  · split
    · exact answer s _
    · exact bindSlot s _ _ _

theorem tick {now : Word} (h : execTick now s = .next n) : Completed s n := by
  have marked : Interim s { s with lastSentMs := now } := (Interim.refl s).keep
  refine of_next ?_ h
  split
  · exact transmit marked.buildPacket _ _
  · exact answer s _

end Completed

/-- Every command that completes ends with one answer (00_scope.md R14). -/
theorem exec_completed {i : Instr} {s n : State} (h : exec i s = .next n) : Completed s n := by
  have start := Interim.refl s
  cases i with
  | reset u => exact .reset h
  | setType u t => exact (Completed.onTx u ((start.setByte .tx 3 t).answer _)).of_next h
  | getType u => exact .getType h
  | getLength u => exact (Completed.answer s _).of_next h
  | addFixedB u v => exact (Completed.onTx u (.addField s _)).of_next h
  | addFixedH u v => exact (Completed.onTx u (.addField s _)).of_next h
  | addFixedW u v => exact (Completed.onTx u (.addField s _)).of_next h
  | getFixedB u => exact .fetch h
  | getFixedH u => exact .fetch h
  | getFixedW u => exact .fetch h
  | addBytes u data => exact (Completed.onTx u (.addField s _)).of_next h
  | getBytes u k => exact .fetch h
  | addString u str => exact (Completed.onTx u (.addField s _)).of_next h
  | getString u => exact .getString h
  | send u => exact .send h
  | sendFw str => exact (Completed.sendString s _ str).of_next h
  | sendPv str => exact (Completed.sendString s _ str).of_next h
  | sendLog str => exact (Completed.sendString s _ str).of_next h
  | rxByte b => exact .rxByte h
  | init => exact .init h
  | bind slot pin rev => exact .bind h
  | clear => exact .clear h
  | rbind slot packed => exact .rbind h
  | tick now => exact .tick h
  | build => exact (start.buildPacket.answer _).of_next h
  | xmit packet => exact (Completed.transmit start packet _).of_next h

/-- Settles O48: what a command reports is its one answer, after the effects it has emitted. -/
theorem oneResultPerCommand : Obligations.OneResultPerCommand := by
  intro i s n h
  obtain ⟨m, r, hm, rfl⟩ := exec_completed h
  obtain ⟨es, hes⟩ := hm.effects
  exact ⟨r, es, by simp [hm.results], hes.symm⟩

end Sys2Proof.Machine
end

section
/-! PROOF. No command stops the block (spec/00_scope.md R14, spec/60_exceptions.md R121): in a state that meets the
invariant every offset a command accesses is below 256 (spec/20_memory.md R32). -/

namespace Sys2Proof.Machine

/-! ### Where the offsets of an access end -/

/-- Bytes that all exist. -/
theorem State.bytes?_of_le (s : State) (u : CodecId) {a k : Nat} (h : a + k ≤ 256) :
    s.bytes? u a k = some (s.bytes u a k) := if_pos (.inr h)

/-- The RX frame invariant of a complete frame (10_state.md R21). -/
theorem RxFrameHolds.of_ready {s : State} (h : RxFrameHolds s) (hs : s.rxState = .ready) :
    s.rx.cursor ≤ (s.byte .rx 2).toNat + 3 ∧ 1 ≤ (s.byte .rx 2).toNat ∧ (s.byte .rx 2).toNat ≤ 253 ∧
      s.rxCount = (s.byte .rx 2).toNat + 3 := by
  simpa only [RxFrameHolds, hs] using h

/-- The RX frame invariant of a frame in reassembly (10_state.md R21). -/
theorem RxFrameHolds.of_body {s : State} (h : RxFrameHolds s) (hs : s.rxState = .body) :
    s.rx.cursor = 4 ∧ 1 ≤ (s.byte .rx 2).toNat ∧ (s.byte .rx 2).toNat ≤ 253 ∧ 3 ≤ s.rxCount ∧
      s.rxCount < (s.byte .rx 2).toNat + 3 := by
  simpa only [RxFrameHolds, hs] using h

namespace StateInv

variable {s : State}

/-- The cursor invariant of either codec (10_state.md R18). -/
theorem cursor_le (h : StateInv s) (u : CodecId) : (s.codec u).cursor ≤ 256 := by
  cases u with
  | tx => exact h.cursors.txHigh
  | rx => exact h.cursors.rxHigh

/-- What remains to be read lies inside the buffer (10_state.md R18, R21; 40_codec.md R76). -/
theorem cursor_add_remaining_le (h : StateInv s) (u : CodecId) : (s.codec u).cursor + s.remaining u ≤ 256 := by
  have hc := h.cursor_le u
  by_cases hf : u = .rx ∧ s.rxState = .ready
  · obtain ⟨rfl, hs⟩ := hf
    obtain ⟨hcur, -, hlen, -⟩ := h.rxFrame.of_ready hs
    rw [State.remaining_ready hs, State.codec_rx]
    omega
  · rw [State.remaining_noFrame (by cases u <;> simp_all)]
    exact hc

/-! ### The commands that access the buffers -/

/-- A read at the cursor stays inside the buffer. -/
theorem fetch_completes (h : StateInv s) (u : CodecId) (k : Nat) (value : List Byte → Value) :
    ∃ n, s.fetch u k value = .next n := by
  have hin := h.cursor_add_remaining_le u
  by_cases hk : s.remaining u < k
  · exact ⟨_, State.fetch_truncated value hk⟩
  · exact ⟨_, State.fetch_next value (by omega) (.inr (by omega))⟩

theorem getString_completes (h : StateInv s) (u : CodecId) : ∃ n, execGetString u s = .next n := by
  have hin := h.cursor_add_remaining_le u
  unfold execGetString
  split
  · exact ⟨_, rfl⟩
  · rw [s.bytes?_of_le u (by omega)]
    exact h.fetch_completes u _ _

/-- The frame that SEND hands over ends at the cursor (10_state.md R19). -/
theorem send_completes (h : StateInv s) (u : CodecId) : ∃ n, execSend u s = .next n := by
  cases u with
  | rx => exact ⟨_, rfl⟩
  | tx =>
    have hend : 0 + ((s.byte .tx 2).toNat + 3) ≤ 256 := by
      rw [h.txLength, Nat.zero_add]
      exact h.cursors.txHigh
    simp only [execSend, s.bytes?_of_le .tx hend]
    exact ⟨_, rfl⟩

/-- The byte that RXBYTE stores in BODY lies inside the frame (10_state.md R21). -/
theorem rxByte_completes (h : StateInv s) (b : Byte) : ∃ n, execRxByte b s = .next n := by
  cases hs : s.rxState with
  | body =>
    obtain ⟨-, -, hlen, -, hcount⟩ := h.rxFrame.of_body hs
    have hlt : s.rxCount < Config.capacity := Nat.lt_of_lt_of_le hcount (Nat.add_le_add_right hlen 3)
    simp only [execRxByte, hs, if_pos hlt]
    exact ⟨_, rfl⟩
  | _ => simp only [execRxByte, hs]; exact ⟨_, rfl⟩

end StateInv

/-- Settles O53: the commands that access the buffers stay inside them, and no other command has a branch that stops. -/
theorem everyCommandCompletes : Obligations.EveryCommandCompletes := by
  intro i s h
  cases i with
  | getFixedB u => exact h.fetch_completes u 1 _
  | getFixedH u => exact h.fetch_completes u 2 _
  | getFixedW u => exact h.fetch_completes u 4 _
  | getBytes u k => exact h.fetch_completes u k.toNat _
  | getString u => exact h.getString_completes u
  | send u => exact h.send_completes u
  | rxByte b => exact h.rxByte_completes b
  | _ => exact ⟨_, rfl⟩

/-- Settles O12: the decoder's answer selects the branch of `step` that runs the command. -/
theorem stepRunsDecodedCommand : Obligations.StepRunsDecodedCommand := by
  intro s i rest h
  rw [step, h]

end Sys2Proof.Machine
end

section
/-! PROOF. What each command changes in the state (spec/10_state.md R24): one change out of a short list, apart from
the results, the effects and the environment's answers. -/

namespace Sys2Proof.Machine

/-! ### RXBYTE -/

/-- The states in which no part of a frame's body is in the buffer (10_state.md R20). -/
def RxState.hunting : RxState → Bool
  | .body => false
  | .ready => false
  | _ => true

/-- RXBYTE in LENGTH where the length is accepted: it is stored, and the body starts (41_channel.md R100). -/
def State.rxStarted (s : State) (b : Byte) : State :=
  { s.setByte .rx 2 b with rxCount := 3, rxState := .body }

/-- RXBYTE in BODY, up to the test for the end of the frame: the byte is stored and counted (41_channel.md R100). -/
def State.rxStored (s : State) (b : Byte) : State :=
  { s.setByte .rx s.rxCount b with rxCount := s.rxCount + 1 }

/-- RXBYTE in BODY with the last byte of the frame (41_channel.md R100). -/
def State.rxCompleted (s : State) (b : Byte) : State :=
  { (s.rxStored b).setCursor .rx 4 with rxState := .ready }

/-- The stored byte is the last one of the frame (41_channel.md R100). -/
def State.RxLast (s : State) (b : Byte) : Prop := s.rxCount + 1 = ((s.rxStored b).byte .rx 2).toNat + 3

/-- Everything RXBYTE in BODY can do (41_channel.md R100). -/
theorem State.rxBody_cases (s : State) (b : Byte) :
    (s.RxLast b ∧ ∃ r, s.rxBody b = (s.rxCompleted b).answer r) ∨
    (¬ s.RxLast b ∧ ∃ r, s.rxBody b = (s.rxStored b).answer r) := by
  by_cases h : s.RxLast b
  · exact .inl ⟨h, _, if_pos h⟩
  · exact .inr ⟨h, _, if_neg h⟩

/-! ### The inbound side after RXBYTE -/

@[simp] theorem State.rxStarted_rx (s : State) (b : Byte) : (s.rxStarted b).rx = s.rx.setByte 2 b := rfl
@[simp] theorem State.rxStored_rx (s : State) (b : Byte) : (s.rxStored b).rx = s.rx.setByte s.rxCount b := rfl

@[simp] theorem State.rxStarted_lengthByte (s : State) (b : Byte) : (s.rxStarted b).byte .rx 2 = b :=
  (Codec.byte_setByte s.rx .rx 2 2 b).trans (if_pos ⟨rfl, Nat.le_refl 2⟩)

theorem State.rxStored_byte_rx (s : State) (b : Byte) (a : Nat) :
    (s.rxStored b).byte .rx a = if a = s.rxCount ∧ 2 ≤ s.rxCount then b else s.byte .rx a :=
  Codec.byte_setByte s.rx .rx s.rxCount a b

@[simp] theorem State.rxCompleted_byte_rx (s : State) (b : Byte) (a : Nat) :
    (s.rxCompleted b).byte .rx a = (s.rxStored b).byte .rx a := rfl

/-! ### What a command can change -/

/-- `Change i s m`: apart from its outputs, command `i` can take `s` to `m`. Each constructor is one way to change the
block state or the storage region, with what the command has checked before it. -/
inductive Change : Instr → State → State → Prop where
  /-- The command makes outputs only, or nothing. -/
  | nothing {i s} : Change i s s
  /-- RESET TX (40_codec.md R79). -/
  | resetTx {s} : Change (.reset .tx) s (s.rewind .tx)
  /-- RESET RX (40_codec.md R79). -/
  | resetRx {s} : Change (.reset .rx) s { s.rewind .rx with rxState := .hunt0, rxCount := 0 }
  /-- SETTYPE TX (40_codec.md R80). -/
  | setType {t s} : Change (.setType .tx t) s (s.setByte .tx 3 t)
  /-- An append of bytes that fit (40_codec.md R83 to R91). -/
  | append {i s bs} (hi : i.appends = some .tx) (hfits : s.tx.cursor + bs.length ≤ 256) : Change i s (s.append bs)
  /-- A read inside a complete frame (40_codec.md R86 to R92). -/
  | read {i s k} (hi : i.readsFields = some .rx) (hs : s.rxState = .ready)
      (hin : s.rx.cursor + k ≤ (s.byte .rx 2).toNat + 3) : Change i s (s.setCursor .rx (s.rx.cursor + k))
  /-- A sender whose string does not fit (41_channel.md R97). -/
  | sendFails {i s t} (hi : i.isSender = true) : Change i s ((s.senderHeader t).rewind .tx)
  /-- A sender whose string field `bs` fits (41_channel.md R97). -/
  | send {i s t bs} (hi : i.isSender = true) (hfits : bs.length ≤ 252) :
      Change i s (((s.senderHeader t).append bs).rewind .tx)
  /-- RXBYTE from one state of the hunt to another (41_channel.md R100). -/
  | rxHunt {b s st} (hs : s.rxState.hunting = true) (hst : st.hunting = true) :
      Change (.rxByte b) s { s with rxState := st }
  /-- RXBYTE with an accepted length (41_channel.md R100). -/
  | rxStart {b s} (hs : s.rxState = .length) (hpos : 1 ≤ b.toNat) (hmax : b.toNat ≤ 253) :
      Change (.rxByte b) s (s.rxStarted b)
  /-- RXBYTE with a byte of the body that is not its last one (41_channel.md R100). -/
  | rxStore {b s} (hs : s.rxState = .body) (hmore : ¬ s.RxLast b) : Change (.rxByte b) s (s.rxStored b)
  /-- RXBYTE with the last byte of the body (41_channel.md R100). -/
  | rxComplete {b s} (hs : s.rxState = .body) (hlast : s.RxLast b) : Change (.rxByte b) s (s.rxCompleted b)
  /-- INIT after a successful read (42_binding_table.md R106). -/
  | load {s slots} : Change .init s { s with slots := slots }
  /-- A new table and the 16 bytes that writing its image left in the storage region (42_binding_table.md R105). -/
  | persist {i s slots bs} (hi : i.writesSlots = true) (hlen : bs.length = 16) :
      Change i s { s with slots := slots, store := s.store.writeBytes s.params.tableBase bs }
  /-- TICK when a send is due (43_sampler.md R116). -/
  | tick {now s} : Change (.tick now) s { s with lastSentMs := now }

/-- Command `i` can take `s` to `n`: a change, and any outputs. -/
def Changes (i : Instr) (s n : State) : Prop := ∃ m, Change i s m ∧ OnlyOutputs m n

/-- Ending a command. -/
theorem Change.answer {i : Instr} {s m : State} (h : Change i s m) (r : Result) : Changes i s (m.answer r) :=
  ⟨m, h, rfl⟩

/-! ### Operations that make outputs only -/

theorem State.rewind_emit (s : State) (e : Effect) (u : CodecId) :
    (s.emit e).rewind u = (s.rewind u).emit e := by cases u <;> rfl

theorem OnlyOutputs.refl (s : State) : OnlyOutputs s s := rfl

theorem onlyOutputs_buildPacket (s : State) : OnlyOutputs s s.buildPacket.2 := by
  rw [State.buildPacket_state]
  rfl

theorem OnlyOutputs.emit {s m : State} (h : OnlyOutputs s m) (e : Effect) : OnlyOutputs s (m.emit e) := by
  rw [h]
  rfl

theorem OnlyOutputs.answer {s m : State} (h : OnlyOutputs s m) (r : Result) : OnlyOutputs s (m.answer r) := by
  rw [h]
  rfl

theorem OnlyOutputs.transmit {s m : State} (h : OnlyOutputs s m) (p : Packet) (v : Value) :
    OnlyOutputs s (m.transmit p v) := by
  rw [h, State.transmit_spec]
  split <;> rfl

/-! ### What a command's operations change -/

namespace Changes

variable {i : Instr} {s m n : State}

theorem of_next (hm : Changes i s m) (h : (.next m : Outcome) = .next n) : Changes i s n :=
  Host.Outcome.next.inj h ▸ hm

/-- A command that ends without a change. -/
theorem answer (i : Instr) (s : State) (r : Result) : Changes i s (s.answer r) := Change.nothing.answer r

/-- On RX an error, which changes nothing (40_codec.md R77). -/
theorem onTx {u : CodecId} {f : State → State} (hf : u = .tx → Changes i s (f s)) : Changes i s (s.onTx u f) := by
  cases u with
  | tx => exact hf rfl
  | rx => exact answer i s _

theorem addField {u : CodecId} (hi : i.appends = some u) (s : State) (bs : List Byte) :
    Changes i s (s.onTx u fun s => s.addField bs) := by
  refine onTx fun hu => ?_
  subst hu
  obtain ⟨-, h⟩ | ⟨hfits, h⟩ := s.addField_cases bs <;> rw [h]
  · exact answer i s _
  · exact (Change.append hi hfits).answer _

/-- A read moves a cursor only where a frame is complete, and then inside the frame (40_codec.md R76). -/
theorem fetch {u : CodecId} {k : Nat} {value : List Byte → Value} (hi : i.readsFields = some u)
    (h : s.fetch u k value = .next n) : Changes i s n := by
  obtain ⟨-, h⟩ | ⟨-, -, -, h⟩ | ⟨hk, -, h⟩ := State.fetch_cases h
  · exact (answer i s _).of_next h.symm
  · cases h
  · refine of_next (Change.answer ?_ _) h.symm
    by_cases hzero : k = 0
    · subst hzero
      cases u <;> exact .nothing
    · by_cases hframe : u = .tx ∨ s.rxState ≠ .ready
      · rw [State.remaining_noFrame hframe] at hk
        omega
      · obtain ⟨hu, hs⟩ : u = .rx ∧ s.rxState = .ready := by cases u <;> simp_all
        subst hu
        rw [State.remaining_ready hs] at hk
        exact .read hi hs (by omega)

theorem sendString (hi : i.isSender = true) (s : State) (t : Byte) (str : List Byte) :
    Changes i s (s.sendString t str) := by
  obtain ⟨-, h⟩ | ⟨hlen, h⟩ := s.sendString_cases t str <;> rw [h]
  · exact (Change.sendFails hi).answer _
  · have hfits : (BitVec.ofNat 8 str.length :: str).length ≤ 252 := Nat.succ_le_succ hlen
    rw [State.rewind_emit]
    exact ⟨_, .send hi hfits, ((OnlyOutputs.refl _).emit _).answer _⟩

/-- Persisting a new table leaves 16 bytes in the storage region, whether or not the write succeeds (20_memory.md R35,
R36). -/
theorem persist (hi : i.writesSlots = true) (s : State) (slots : Vector Slot 16) :
    Changes i s { s with slots := slots }.persist.2 := by
  rw [State.persist_spec _ |>.2]
  exact ⟨_, .persist hi (writtenBytes_length (tableImage_length _ _) _), rfl⟩

/-- Further outputs. -/
theorem outputs (h : Changes i s m) (hn : OnlyOutputs m n) : Changes i s n := by
  obtain ⟨m', hm', hm⟩ := h
  refine ⟨m', hm', ?_⟩
  rw [hn, hm]
  rfl

theorem bindSlot (hi : i.writesSlots = true) (s : State) (slot : Fin 16) (pin : Fin 127) (r : Bool) :
    Changes i s (s.bindSlot slot pin r) := by
  obtain ⟨-, h⟩ | ⟨-, -, h⟩ | ⟨-, -, h⟩ := s.bindSlot_cases slot pin r <;> rw [h]
  · exact answer i s _
  · exact (persist hi s _).outputs rfl
  · exact (persist hi s _).outputs rfl

/-! ### The commands with branches of their own -/

theorem reset {u : CodecId} (h : execReset u s = .next n) : Changes (.reset u) s n := by
  cases u with
  | tx => exact (Change.resetTx.answer _).of_next h
  | rx => exact (Change.resetRx.answer _).of_next h

theorem getType {u : CodecId} (h : execGetType u s = .next n) : Changes (.getType u) s n := by
  refine of_next ?_ h
  split <;> exact answer _ s _

theorem getString {u : CodecId} (h : execGetString u s = .next n) : Changes (.getString u) s n := by
  unfold execGetString at h
  split at h
  · exact (answer _ s _).of_next h
  · split at h
    · cases h
    · exact fetch rfl h

theorem send {u : CodecId} (h : execSend u s = .next n) : Changes (.send u) s n := by
  cases u with
  | rx => exact (answer _ s _).of_next h
  | tx =>
    simp only [execSend] at h
    split at h
    · cases h
    · exact of_next ⟨s, .nothing, ((OnlyOutputs.refl s).emit _).answer _⟩ h

theorem rxLength {b : Byte} (hs : s.rxState = .length) : Changes (.rxByte b) s (s.rxLength b) := by
  unfold State.rxLength
  split
  next => exact (Change.rxHunt (by rw [hs]; rfl) rfl).answer _
  next hb =>
    obtain ⟨hpos, hmax⟩ := not_or.1 hb
    have hpos : 1 ≤ b.toNat := Nat.one_le_iff_ne_zero.2 fun h => hpos (BitVec.eq_of_toNat_eq h)
    exact (Change.rxStart hs hpos (Nat.le_of_not_lt hmax)).answer _

theorem rxByte {b : Byte} (h : execRxByte b s = .next n) : Changes (.rxByte b) s n := by
  cases hs : s.rxState with
  | hunt0 =>
    simp only [execRxByte, hs] at h
    refine of_next ?_ h
    split
    · exact (Change.rxHunt (by rw [hs]; rfl) rfl).answer _
    · exact answer _ s _
  | hunt1 =>
    simp only [execRxByte, hs] at h
    exact of_next ((Change.rxHunt (by rw [hs]; rfl) (by split <;> rfl)).answer _) h
  | length =>
    simp only [execRxByte, hs] at h
    exact (rxLength hs).of_next h
  | body =>
    simp only [execRxByte, hs] at h
    split at h
    · obtain ⟨hlast, r, hb⟩ | ⟨hmore, r, hb⟩ := s.rxBody_cases b <;> rw [hb] at h
      · exact ((Change.rxComplete hs hlast).answer r).of_next h
      · exact ((Change.rxStore hs hmore).answer r).of_next h
    · cases h
  | ready =>
    simp only [execRxByte, hs] at h
    exact (answer _ s _).of_next h

theorem init (h : execInit s = .next n) : Changes .init s n := by
  refine of_next ?_ h
  split
  · exact ⟨_, .load, rfl⟩
  · exact ⟨s, .nothing, rfl⟩

theorem bind {slot : Byte} {pin : Half} {rev : Byte} (h : execBind slot pin rev s = .next n) :
    Changes (.bind slot pin rev) s n := by
  refine of_next ?_ h
  split
  · exact answer _ s _
  · split
    · exact answer _ s _
    · split
      · exact answer _ s _
      · exact bindSlot rfl s _ _ _

theorem clear (h : execClear s = .next n) : Changes .clear s n := by
  refine of_next ?_ h
  split <;> exact (persist rfl s _).outputs rfl

theorem rbind {slot packed : Byte} (h : execRbind slot packed s = .next n) : Changes (.rbind slot packed) s n := by
  refine of_next ?_ h
  split
  · exact answer _ s _
  · split
    · exact answer _ s _
    · exact bindSlot rfl s _ _ _

theorem tick {now : Word} (h : execTick now s = .next n) : Changes (.tick now) s n := by
  refine of_next ?_ h
  split
  · exact ⟨_, .tick, (onlyOutputs_buildPacket _).transmit _ _⟩
  · exact answer _ s _

end Changes

/-- What a command that completes has changed. -/
theorem exec_changes {i : Instr} {s n : State} (h : exec i s = .next n) : Changes i s n := by
  cases i with
  | reset u => exact .reset h
  | setType u t => exact (Changes.onTx (by rintro rfl; exact Change.setType.answer _)).of_next h
  | getType u => exact .getType h
  | getLength u => exact (Changes.answer _ s _).of_next h
  | addFixedB u v => exact (Changes.addField rfl s _).of_next h
  | addFixedH u v => exact (Changes.addField rfl s _).of_next h
  | addFixedW u v => exact (Changes.addField rfl s _).of_next h
  | getFixedB u => exact .fetch rfl h
  | getFixedH u => exact .fetch rfl h
  | getFixedW u => exact .fetch rfl h
  | addBytes u data => exact (Changes.addField rfl s _).of_next h
  | getBytes u k => exact .fetch rfl h
  | addString u str => exact (Changes.addField rfl s _).of_next h
  | getString u => exact .getString h
  | send u => exact .send h
  | sendFw str => exact (Changes.sendString rfl s _ str).of_next h
  | sendPv str => exact (Changes.sendString rfl s _ str).of_next h
  | sendLog str => exact (Changes.sendString rfl s _ str).of_next h
  | rxByte b => exact .rxByte h
  | init => exact .init h
  | bind slot pin rev => exact .bind h
  | clear => exact .clear h
  | rbind slot packed => exact .rbind h
  | tick now => exact .tick h
  | build => exact Changes.of_next ⟨s, .nothing, (onlyOutputs_buildPacket s).answer _⟩ h
  | xmit packet => exact Changes.of_next ⟨s, .nothing, (OnlyOutputs.refl s).transmit packet _⟩ h

end Sys2Proof.Machine
end

section
/-! PROOF. The state invariant (spec/10_state.md R17 to R21): it holds at power-on, and every change keeps it. -/

namespace Sys2Proof.Machine

/-! ### The parts of the invariant -/

/-- The invariant of the outgoing codec (10_state.md R17 to R19). -/
structure TxHolds (c : Codec) : Prop where
  canonical : Memory.wf 2 256 c.buf = true
  low : 4 ≤ c.cursor
  high : c.cursor ≤ 256
  length : (c.byte .tx 2).toNat + 3 = c.cursor

/-- `updateLength` establishes the TX length invariant for every cursor in range (10_state.md R19, 40_codec.md R78). -/
theorem TxHolds.of_lengthByte {buf : Memory} {c : Nat} (hbuf : Memory.wf 2 256 buf = true) (hlow : 4 ≤ c)
    (hhigh : c ≤ 256) : TxHolds (Codec.setByte ⟨buf, c⟩ 2 (BitVec.ofNat 8 c - 3#8)) where
  canonical := Codec.wf_setByte hbuf (by omega)
  low := by simpa using hlow
  high := by simpa using hhigh
  length := by
    rw [Codec.byte_setByte, if_pos (by omega), lengthByte_eq (by omega), Codec.setByte_cursor, BitVec.toNat_ofNat]
    change (c - 3) % 256 + 3 = c
    omega

/-- A write past the length byte, inside the buffer. -/
theorem TxHolds.setByte {c : Codec} (h : TxHolds c) {a : Nat} (v : Byte) (hlow : 3 ≤ a) (hhigh : a < 256) :
    TxHolds (c.setByte a v) where
  canonical := Codec.wf_setByte h.canonical hhigh
  low := by simpa using h.low
  high := by simpa using h.high
  length := by
    rw [Codec.byte_setByte, if_neg (by omega), Codec.setByte_cursor]
    exact h.length

/-- The RX frame invariant during the hunt: the cursor is at the first field. -/
theorem rxFrameHolds_hunting {s : State} (hs : s.rxState.hunting = true) : RxFrameHolds s ↔ s.rx.cursor = 4 := by
  cases hst : s.rxState <;> simp_all [RxFrameHolds, RxState.hunting]

theorem rxFrameHolds_body {s : State} (hs : s.rxState = .body) :
    RxFrameHolds s ↔ s.rx.cursor = 4 ∧ 1 ≤ (s.byte .rx 2).toNat ∧ (s.byte .rx 2).toNat ≤ 253 ∧ 3 ≤ s.rxCount ∧
      s.rxCount < (s.byte .rx 2).toNat + 3 := by
  simp only [RxFrameHolds, hs]

theorem rxFrameHolds_ready {s : State} (hs : s.rxState = .ready) :
    RxFrameHolds s ↔ s.rx.cursor ≤ (s.byte .rx 2).toNat + 3 ∧ 1 ≤ (s.byte .rx 2).toNat ∧
      (s.byte .rx 2).toNat ≤ 253 ∧ s.rxCount = (s.byte .rx 2).toNat + 3 := by
  simp only [RxFrameHolds, hs]

/-- Until a frame is complete the RX cursor is at 4 (41_channel.md R100, "already 4"). -/
theorem RxFrameHolds.cursor_eq {s : State} (h : RxFrameHolds s) (hready : s.rxState ≠ .ready) : s.rx.cursor = 4 := by
  cases hs : s.rxState with
  | ready => exact absurd hs hready
  | body => exact (h.of_body hs).1
  | _ => exact (rxFrameHolds_hunting (by rw [hs]; rfl)).1 h

/-- The RX frame invariant keeps the cursor in range from above (10_state.md R18). -/
theorem RxFrameHolds.cursor_le {s : State} (h : RxFrameHolds s) : s.rx.cursor ≤ 256 := by
  by_cases hready : s.rxState = .ready
  · obtain ⟨hcur, -, hmax, -⟩ := h.of_ready hready
    omega
  · have := h.cursor_eq hready
    omega

/-! ### What keeps the invariant -/

namespace StateInv

variable {s : State}

theorem txHolds (h : StateInv s) : TxHolds s.tx where
  canonical := h.memories.tx
  low := h.cursors.txLow
  high := h.cursors.txHigh
  length := h.txLength

/-- A new TX codec. -/
theorem setTx (h : StateInv s) {c : Codec} (hc : TxHolds c) : StateInv (s.setCodec .tx c) where
  memories := ⟨hc.canonical, h.memories.rx, h.memories.store⟩
  cursors := ⟨hc.low, hc.high, h.cursors.rxLow, h.cursors.rxHigh, h.cursors.count⟩
  txLength := hc.length
  rxFrame := h.rxFrame
  types := h.types

/-- A new state of the inbound side. -/
theorem setRx (h : StateInv s) {c : Codec} {st : RxState} {k : Nat} (hbuf : Memory.wf 2 256 c.buf = true)
    (hlow : 4 ≤ c.cursor) (hcount : k ≤ 256)
    (hframe : RxFrameHolds { s with rx := c, rxState := st, rxCount := k }) :
    StateInv { s with rx := c, rxState := st, rxCount := k } where
  memories := ⟨h.memories.tx, hbuf, h.memories.store⟩
  cursors := ⟨h.cursors.txLow, h.cursors.txHigh, hlow, hframe.cursor_le, hcount⟩
  txLength := h.txLength
  rxFrame := hframe
  types := h.types

/-- New values of the elements outside the two codecs and the reassembly. -/
theorem setRest (h : StateInv s) {slots : Vector Slot 16} {ms : Word} {store : Memory} {env : Env}
    {commands : List Byte} {results : List Result} {effects : List Effect}
    (hstore : Memory.wf s.params.tableBase (s.params.tableBase + 16) store = true) :
    StateInv { s with slots := slots, lastSentMs := ms, store := store, env := env, commands := commands
                      results := results, effects := effects } where
  memories := ⟨h.memories.tx, h.memories.rx, hstore⟩
  cursors := ⟨h.cursors.txLow, h.cursors.txHigh, h.cursors.rxLow, h.cursors.rxHigh, h.cursors.count⟩
  txLength := h.txLength
  rxFrame := h.rxFrame
  types := h.types

/-- The outputs have no part in the invariant. -/
theorem outputs {n : State} (h : StateInv s) (hn : OnlyOutputs s n) : StateInv n := by
  rw [hn]
  exact h.setRest h.memories.store

/-! ### The TX message -/

theorem rewindTx (h : StateInv s) : StateInv (s.rewind .tx) :=
  h.setTx (.of_lengthByte h.memories.tx (Nat.le_refl 4) (by decide))

theorem setType (h : StateInv s) (t : Byte) : StateInv (s.setByte .tx 3 t) :=
  h.setTx (h.txHolds.setByte t (Nat.le_refl 3) (by omega))

theorem append (h : StateInv s) {bs : List Byte} (hfits : s.tx.cursor + bs.length ≤ 256) : StateInv (s.append bs) := by
  rw [State.append_eq]
  exact h.setTx (.of_lengthByte (Codec.wf_setBytes bs h.memories.tx hfits) (Nat.le_add_right_of_le h.cursors.txLow)
    hfits)

theorem senderHeader (h : StateInv s) (t : Byte) : StateInv (s.senderHeader t) := h.rewindTx.setType t

/-! ### The RX message and its reassembly -/

theorem resetRx (h : StateInv s) : StateInv { s.rewind .rx with rxState := .hunt0, rxCount := 0 } := by
  rw [State.rewind_eq]
  exact h.setRx (Codec.wf_setByte h.memories.rx (by omega)) (by simp) (by omega)
    ((rxFrameHolds_hunting rfl).2 (by simp))

theorem readRx (h : StateInv s) {k : Nat} (hs : s.rxState = .ready)
    (hin : s.rx.cursor + k ≤ (s.byte .rx 2).toNat + 3) : StateInv (s.setCursor .rx (s.rx.cursor + k)) := by
  obtain ⟨-, hlen⟩ := h.rxFrame.of_ready hs
  exact h.setRx h.memories.rx (Nat.le_add_right_of_le h.cursors.rxLow) h.cursors.count
    ((rxFrameHolds_ready (s := s.setCursor .rx (s.rx.cursor + k)) hs).2 ⟨hin, hlen⟩)

theorem rxHunt (h : StateInv s) {st : RxState} (hs : s.rxState.hunting = true) (hst : st.hunting = true) :
    StateInv { s with rxState := st } :=
  h.setRx h.memories.rx h.cursors.rxLow h.cursors.count
    ((rxFrameHolds_hunting hst).2 ((rxFrameHolds_hunting hs).1 h.rxFrame))

theorem rxStart (h : StateInv s) {b : Byte} (hs : s.rxState = .length) (hpos : 1 ≤ b.toNat) (hmax : b.toNat ≤ 253) :
    StateInv (s.rxStarted b) := by
  have hcursor : (s.rxStarted b).rx.cursor = 4 := by simpa using h.rxFrame.cursor_eq (by simp [hs])
  have hframe : RxFrameHolds (s.rxStarted b) := by
    rw [rxFrameHolds_body rfl, State.rxStarted_lengthByte]
    exact ⟨hcursor, hpos, hmax, Nat.le_refl 3, Nat.lt_add_of_pos_left hpos⟩
  exact h.setRx (Codec.wf_setByte h.memories.rx (by omega)) hcursor.ge (by omega) hframe

/-- The byte of the body that comes next is stored past the length byte. -/
theorem rxStored_lengthByte (h : StateInv s) (hs : s.rxState = .body) (b : Byte) :
    (s.rxStored b).byte .rx 2 = s.byte .rx 2 := by
  obtain ⟨-, -, -, hcount, -⟩ := h.rxFrame.of_body hs
  rw [State.rxStored_byte_rx, if_neg (by omega)]

theorem rxStore (h : StateInv s) {b : Byte} (hs : s.rxState = .body) (hmore : ¬ s.RxLast b) :
    StateInv (s.rxStored b) := by
  have hbyte := h.rxStored_lengthByte hs b
  obtain ⟨hcur, hpos, hmax, hlow, hcount⟩ := h.rxFrame.of_body hs
  have hcursor : (s.rxStored b).rx.cursor = 4 := by simpa using hcur
  have hframe : RxFrameHolds (s.rxStored b) := by
    rw [State.RxLast, hbyte] at hmore
    rw [rxFrameHolds_body (s := s.rxStored b) hs, hbyte]
    exact ⟨hcursor, hpos, hmax, Nat.le_succ_of_le hlow, Nat.lt_of_le_of_ne hcount hmore⟩
  exact h.setRx (Codec.wf_setByte h.memories.rx (by omega)) hcursor.ge (by omega) hframe

theorem rxComplete (h : StateInv s) {b : Byte} (hs : s.rxState = .body) (hlast : s.RxLast b) :
    StateInv (s.rxCompleted b) := by
  have hbyte := h.rxStored_lengthByte hs b
  obtain ⟨-, hpos, hmax, hlow, hcount⟩ := h.rxFrame.of_body hs
  have hframe : RxFrameHolds (s.rxCompleted b) := by
    rw [State.RxLast, hbyte] at hlast
    rw [rxFrameHolds_ready rfl, State.rxCompleted_byte_rx, hbyte]
    exact ⟨Nat.add_le_add_right hpos 3, hpos, hmax, hlast⟩
  exact h.setRx (c := (s.rxCompleted b).rx) (k := s.rxCount + 1)
    (Codec.wf_setByte (c := s.rx) h.memories.rx (by omega)) (Nat.le_refl 4) (by omega) hframe

/-! ### Every change -/

theorem change {i : Instr} {m : State} (h : StateInv s) (hm : Change i s m) : StateInv m := by
  cases hm with
  | nothing => exact h
  | resetTx => exact h.rewindTx
  | resetRx => exact h.resetRx
  | setType => exact h.setType _
  | append hi hfits => exact h.append hfits
  | read hi hs hin => exact h.readRx hs hin
  | sendFails hi => exact (h.senderHeader _).rewindTx
  | send hi hfits => exact ((h.senderHeader _).append (by rw [State.senderHeader_cursor]; omega)).rewindTx
  | rxHunt hs hst => exact h.rxHunt hs hst
  | rxStart hs hpos hmax => exact h.rxStart hs hpos hmax
  | rxStore hs hmore => exact h.rxStore hs hmore
  | rxComplete hs hlast => exact h.rxComplete hs hlast
  | load => exact h.setRest h.memories.store
  | persist hi hlen => exact h.setRest (Memory.wf_writeBytes _ h.memories.store (Nat.le_refl _) (by rw [hlen]))
  | tick => exact h.setRest h.memories.store

/-- Every command keeps the invariant. -/
theorem exec {i : Instr} {n : State} (h : StateInv s) (hn : Machine.exec i s = .next n) : StateInv n := by
  obtain ⟨m, hm, hout⟩ := exec_changes hn
  exact (h.change hm).outputs hout

end StateInv

/-- Settles O54: taking the command off the stream keeps the invariant, and so does every change a command makes. -/
theorem stepKeepsInvariant : Obligations.StepKeepsInvariant := by
  intro s n h hn
  have taken (rest : List Byte) : StateInv { s with commands := rest } := h.setRest h.memories.store
  unfold step at hn
  split at hn
  next i rest _ => exact (taken rest).exec hn
  next op rest _ => exact Host.Outcome.next.inj hn ▸ (taken rest).outputs rfl
  next => cases hn

end Sys2Proof.Machine
end

section
/-! PROOF. Who writes each element of the state (spec/10_state.md R24, R26). -/

namespace Sys2Proof.Machine

/-! ### Bytes that an operation on a codec keeps -/

/-- RESET writes the length byte only (40_codec.md R79). -/
theorem State.byte_rewind_of_ne (s : State) (u : CodecId) {a : Nat} (ha : a ≠ 2) :
    (s.rewind u).byte u a = s.byte u a := by
  rw [State.rewind_eq, State.byte_setCodec_same, Codec.byte_setByte, if_neg (by tauto)]
  rfl

/-- An append keeps the type byte (20_memory.md R43). -/
theorem State.typeByte_append {s : State} (bs : List Byte) (hlow : 4 ≤ s.tx.cursor) :
    (s.append bs).byte .tx 3 = s.byte .tx 3 :=
  (State.append_spec hlow).otherBytes 3 (by omega) (.inl (by omega))

theorem State.byte_setType_of_ne (s : State) (t : Byte) {a : Nat} (ha : a ≠ 3) :
    (s.setByte .tx 3 t).byte .tx a = s.byte .tx a :=
  (Codec.byte_setByte s.tx .tx 3 a t).trans (if_neg (by tauto))

/-! ### The "written by" column of R24 -/

namespace Change

variable {i : Instr} {s m : State}

theorem writes_txLength (hm : Change i s m) (h : m.byte .tx 2 ≠ s.byte .tx 2) :
    i = .reset .tx ∨ i.appends = some .tx ∨ i.isSender = true := by
  cases hm with
  | resetTx => exact .inl rfl
  | append hi => exact .inr (.inl hi)
  | sendFails hi => exact .inr (.inr hi)
  | send hi => exact .inr (.inr hi)
  | setType => exact absurd (s.byte_setType_of_ne _ (by omega)) h
  | _ => exact absurd rfl h

theorem writes_txType (hm : Change i s m) (hlow : 4 ≤ s.tx.cursor) (h : m.byte .tx 3 ≠ s.byte .tx 3) :
    (∃ t, i = .setType .tx t) ∨ i.isSender = true := by
  cases hm with
  | setType => exact .inl ⟨_, rfl⟩
  | sendFails hi => exact .inr hi
  | send hi => exact .inr hi
  | resetTx => exact absurd (s.byte_rewind_of_ne .tx (by omega)) h
  | append => exact absurd (State.typeByte_append _ hlow) h
  | _ => exact absurd rfl h

theorem writes_txField (hm : Change i s m) {a : Nat} (ha : 4 ≤ a) (h : m.byte .tx a ≠ s.byte .tx a) :
    i.appends = some .tx ∨ i.isSender = true := by
  cases hm with
  | append hi => exact .inl hi
  | sendFails hi => exact .inr hi
  | send hi => exact .inr hi
  | resetTx => exact absurd (s.byte_rewind_of_ne .tx (by omega)) h
  | setType => exact absurd (s.byte_setType_of_ne _ (by omega)) h
  | _ => exact absurd rfl h

theorem writes_txCursor (hm : Change i s m) (h : m.tx.cursor ≠ s.tx.cursor) :
    i = .reset .tx ∨ i.appends = some .tx ∨ i.isSender = true := by
  cases hm with
  | resetTx => exact .inl rfl
  | append hi => exact .inr (.inl hi)
  | sendFails hi => exact .inr (.inr hi)
  | send hi => exact .inr (.inr hi)
  | setType => exact absurd (Codec.setByte_cursor s.tx 3 _) h
  | _ => exact absurd rfl h

theorem writes_rxLength (hm : Change i s m) (h : m.byte .rx 2 ≠ s.byte .rx 2) :
    i = .reset .rx ∨ i.isRxByte = true := by
  cases hm with
  | resetRx => exact .inl rfl
  | rxHunt | rxStart | rxStore | rxComplete => exact .inr rfl
  | _ => exact absurd rfl h

theorem writes_rxField (hm : Change i s m) {a : Nat} (ha : 3 ≤ a) (h : m.byte .rx a ≠ s.byte .rx a) :
    i.isRxByte = true := by
  cases hm with
  | rxHunt | rxStart | rxStore | rxComplete => rfl
  | resetRx => exact absurd (s.byte_rewind_of_ne .rx (by omega)) h
  | _ => exact absurd rfl h

/-- A completed frame has its cursor where the body had it (41_channel.md R100, "already 4"). -/
theorem writes_rxCursor (hm : Change i s m) (hframe : RxFrameHolds s) (h : m.rx.cursor ≠ s.rx.cursor) :
    i = .reset .rx ∨ i.readsFields = some .rx := by
  cases hm with
  | resetRx => exact .inl rfl
  | read hi => exact .inr hi
  | rxStart => exact absurd (Codec.setByte_cursor s.rx 2 _) h
  | rxStore => exact absurd (Codec.setByte_cursor s.rx s.rxCount _) h
  | rxComplete hs => exact absurd (hframe.of_body hs).1.symm h
  | _ => exact absurd rfl h

theorem writes_reassembly (hm : Change i s m) (h : m.rxState ≠ s.rxState ∨ m.rxCount ≠ s.rxCount) :
    i = .reset .rx ∨ i.isRxByte = true := by
  cases hm with
  | resetRx => exact .inl rfl
  | rxHunt | rxStart | rxStore | rxComplete => exact .inr rfl
  | _ => exact h.elim (absurd rfl) (absurd rfl)

theorem writes_slots (hm : Change i s m) (h : m.slots ≠ s.slots) : i.writesSlots = true := by
  cases hm with
  | load => rfl
  | persist hi => exact hi
  | _ => exact absurd rfl h

theorem writes_lastSentMs (hm : Change i s m) (h : m.lastSentMs ≠ s.lastSentMs) : i.isTick = true := by
  cases hm with
  | tick => rfl
  | _ => exact absurd rfl h

end Change

/-- Settles O50: each element is written only by the changes that R24 lists, and outputs are no element. -/
theorem writersOfEachElement : Obligations.WritersOfEachElement := by
  intro i s n hs h
  obtain ⟨m, hm, hn⟩ := exec_changes h
  rw [hn]
  exact ⟨hm.writes_txLength, hm.writes_txType hs.cursors.txLow, fun _ => hm.writes_txField, hm.writes_txCursor,
    hm.writes_rxLength, fun _ => hm.writes_rxField, hm.writes_rxCursor hs.rxFrame, hm.writes_reassembly,
    hm.writes_slots, hm.writes_lastSentMs⟩

/-- Settles O49: a command ends in a state that can stand inside it, with an answer added. -/
theorem parametersAndCommandsUntouched : Obligations.ParametersAndCommandsUntouched := by
  intro i s n h
  obtain ⟨m, r, hm, rfl⟩ := exec_completed h
  exact ⟨hm.params, hm.commands⟩

end Sys2Proof.Machine
end

section
/-! PROOF. The state at power-on (spec/10_state.md R30) and the hard-wired bytes (R17, R24). -/

namespace Sys2Proof.Machine

@[simp] theorem State.setCodec_codec (s : State) (u : CodecId) : s.setCodec u (s.codec u) = s := by cases u <;> rfl

/-- Settles O3: the two offsets hold no data, so a read gives the sentinel and a write is discarded. -/
theorem sentinelIsHardwired : Obligations.SentinelIsHardwired := by
  intro s u a ha
  refine ⟨Codec.byte_sentinel _ u ha, fun v => ?_⟩
  rw [State.setByte, Codec.setByte, if_pos ha, State.setCodec_codec]

theorem State.reset_codec (u : CodecId) : State.reset.codec u = Codec.powerOn := by cases u <;> rfl

/-- Of the bytes from offset 2 on, construction writes the length byte only (10_state.md R30). -/
theorem Codec.byte_powerOn (u : CodecId) {a : Nat} (ha : 2 ≤ a) :
    Codec.powerOn.byte u a = if a = 2 then 1#8 else initBuf u a := by
  by_cases h : a = 2 <;> simp [Codec.byte, Codec.powerOn, Memory.read, h, Nat.not_lt.2 ha]

theorem State.byte_reset (u : CodecId) {a : Nat} (ha : 2 ≤ a) :
    State.reset.byte u a = if a = 2 then 1#8 else initBuf u a := by
  rw [State.byte, State.reset_codec, Codec.byte_powerOn u ha]

/-- Settles O1: construction writes the length byte and the cursor of each codec, and the rest is written out in
`State.reset`. -/
theorem powerOnValues : Obligations.PowerOnValues := by
  have sentinel (u : CodecId) (a : Nat) (ha : a < 2) := Codec.byte_sentinel (State.reset.codec u) u ha
  refine ⟨fun u => ⟨sentinel u 0 (by omega), sentinel u 1 (by omega), State.byte_reset u (Nat.le_refl 2),
    congrArg Codec.cursor (State.reset_codec u)⟩, fun a hlow _ => ?_, rfl, rfl, fun i => ?_, rfl, rfl⟩
  · have free (u : CodecId) : State.reset.byte u a = initBuf u a := by
      rw [State.byte_reset u (by omega), if_neg (by omega)]
    exact ⟨free .tx, free .rx⟩
  · exact Vector.getElem_replicate i.isLt

/-- The constants are distinct values of one renaming of the bytes (92_eei_decisions.md D12). -/
theorem typesDistinct_params : TypesDistinct Config.params :=
  ⟨Config.typeIds.injective.ne (by decide), Config.typeIds.injective.ne (by decide),
    Config.typeIds.injective.ne (by decide)⟩

/-- Settles O4: both codecs are as their own construction leaves them, and the hunt for a frame begins. -/
theorem resetSatisfiesInvariant : Obligations.ResetSatisfiesInvariant where
  memories := ⟨by decide, by decide, rfl⟩
  cursors := ⟨by decide, by decide, by decide, by decide, by decide⟩
  txLength := by
    rw [TxLengthHolds, State.byte_reset .tx (Nat.le_refl 2)]
    decide
  rxFrame := (rxFrameHolds_hunting rfl).2 rfl
  types := typesDistinct_params

end Sys2Proof.Machine
end

section
/-! PROOF. A persisted table is loaded back unchanged (spec/20_memory.md R35, spec/30_encoding.md R58, R59,
spec/42_binding_table.md R105, R106). -/

namespace Sys2Proof.Machine

/-! ### Binding bytes -/

/-- Unpacking a packed slot gives it back, under either layout (30_encoding.md R58). -/
@[simp] theorem unpackSlot_packSlot (layout : BindingByteLayout) (v : Slot) :
    unpackSlot layout (packSlot layout v) = v := by
  obtain ⟨pin, reversed⟩ := v
  cases layout with
  | pinLow =>
    have hcode : (bit reversed ++ pinCode pin).extractLsb' 0 7 = pinCode pin :=
      BitVec.extractLsb'_append_eq_right
    have hbit : (bit reversed ++ pinCode pin).getLsbD 7 = reversed := by
      rw [BitVec.getLsbD_append]
      simp [bit]
    simp only [packSlot, unpackSlot, hcode, hbit, pinOf_pinCode]
  | pinHigh =>
    have hcode : (pinCode pin ++ bit reversed).extractLsb' 1 7 = pinCode pin :=
      BitVec.extractLsb'_append_eq_left
    have hbit : (pinCode pin ++ bit reversed).getLsbD 0 = reversed := by
      rw [BitVec.getLsbD_append]
      simp [bit]
    simp only [packSlot, unpackSlot, hcode, hbit, pinOf_pinCode]

/-- `Image` (30_encoding.md R59). -/
theorem tableImage_getElem? (layout : BindingByteLayout) (slots : Vector Slot 16) (i : Fin 16) :
    (tableImage layout slots)[i.val]? = some (packSlot layout slots[i]) := by
  simp [tableImage]

/-! ### Storage holds the table -/

/-- The storage region holds the image of the table (20_memory.md R35, 42_binding_table.md R105). -/
def TablePersisted (s : State) : Prop :=
  ∀ i : Fin 16, s.storeByte (s.params.tableBase + i.val) = packSlot s.params.layout s.slots[i]

/-- A successful write of `Persist()` leaves the image in the region (42_binding_table.md R105). -/
theorem TablePersisted.of_persist {s : State} (hw : s.env.nextStorageWrite.1 = .ok) :
    TablePersisted s.persist.2 := by
  intro i
  rw [s.persist_spec.2, hw]
  simp only [State.storeByte, writtenBytes, Memory.read_writeBytes, tableImage_length]
  rw [if_pos (by omega), Nat.add_sub_cancel_left, tableImage_getElem?]
  rfl

/-- The outputs have no part in it. -/
theorem TablePersisted.outputs {s n : State} (h : TablePersisted s) (hn : OnlyOutputs s n) : TablePersisted n := by
  rw [hn]
  exact h

/-! ### BIND, RBIND and CLEAR -/

/-- `n` ends a table command that began in `s`: it issued no storage write, or it reported an error, or the region
now holds the table. -/
def TableCommandEnd (s n : State) : Prop :=
  n.storageWrites = s.storageWrites ∨ (∃ e, n.results = s.results ++ [.err e]) ∨ TablePersisted n

namespace TableCommandEnd

variable {s n : State}

theorem of_next {m : State} (hm : TableCommandEnd s m) (h : (.next m : Outcome) = .next n) : TableCommandEnd s n :=
  Host.Outcome.next.inj h ▸ hm

theorem answer (s : State) (r : Result) : TableCommandEnd s (s.answer r) := .inl rfl

/-- A failed write is reported (42_binding_table.md R107, R108). -/
theorem persistFails (s : State) (slots : Vector Slot 16) (e : Err) :
    TableCommandEnd s ({ s with slots := slots }.persist.2.answer (.err e)) := by
  rw [State.persist_spec _ |>.2]
  exact .inr (.inl ⟨e, rfl⟩)

theorem bindSlot (s : State) (i : Fin 16) (pin : Fin 127) (r : Bool) : TableCommandEnd s (s.bindSlot i pin r) := by
  obtain ⟨-, h⟩ | ⟨-, hw, h⟩ | ⟨-, -, h⟩ := s.bindSlot_cases i pin r <;> rw [h]
  · exact answer s _
  · have stored : TablePersisted { s with slots := s.slots.set i ⟨some pin, r⟩ }.persist.2 := .of_persist hw
    exact .inr (.inr (stored.outputs (((OnlyOutputs.refl _).emit _).answer _)))
  · exact persistFails s _ _

theorem bind {slot : Byte} {pin : Half} {rev : Byte} (h : execBind slot pin rev s = .next n) :
    TableCommandEnd s n := by
  refine of_next ?_ h
  split
  · exact answer s _
  · split
    · exact answer s _
    · split
      · exact answer s _
      · exact bindSlot s _ _ _

theorem clear (h : execClear s = .next n) : TableCommandEnd s n := by
  have success := (State.persist_spec { s with slots := Vector.replicate 16 Slot.unbound }).1
  refine of_next ?_ h
  split
  next hok =>
    have stored := TablePersisted.of_persist (of_decide_eq_true (success.symm.trans hok))
    exact .inr (.inr (stored.outputs ((OnlyOutputs.refl _).answer _)))
  next => exact persistFails s _ _

theorem rbind {slot packed : Byte} (h : execRbind slot packed s = .next n) : TableCommandEnd s n := by
  refine of_next ?_ h
  split
  · exact answer s _
  · split
    · exact answer s _
    · exact bindSlot s _ _ _

/-- A command that succeeded and issued a write has persisted the table. -/
theorem persisted (h : TableCommandEnd s n) {v : Value} (hok : n.results = s.results ++ [.ok v])
    (hwrite : n.storageWrites = s.storageWrites + 1) : TablePersisted n := by
  obtain hnone | ⟨e, herr⟩ | h := h
  · omega
  · simp [herr] at hok
  · exact h

end TableCommandEnd

theorem exec_tableCommandEnd {i : Instr} {s n : State} (hi : i.writesSlots = true) (hne : i ≠ .init)
    (h : exec i s = .next n) : TableCommandEnd s n := by
  cases i with
  | init => exact absurd rfl hne
  | bind slot pin rev => exact .bind h
  | clear => exact .clear h
  | rbind slot packed => exact .rbind h
  | _ => cases hi

/-! ### INIT -/

/-- A successful INIT loads slot i from byte i of the region (42_binding_table.md R106). -/
theorem init_loads {s n : State} {v : Value} (h : exec .init s = .next n) (hok : n.results = s.results ++ [.ok v])
    (i : Fin 16) : n.slots[i] = unpackSlot s.params.layout (s.storeByte (s.params.tableBase + i.val)) := by
  have hn := Host.Outcome.next.inj h
  split at hn
  · exact hn ▸ loadImage_getElem _ _ i
  · simp [← hn] at hok

/-- INIT changes no slot where the region holds the table. -/
theorem TablePersisted.init_slots {s n : State} {v : Value} (hs : TablePersisted s) (h : exec .init s = .next n)
    (hok : n.results = s.results ++ [.ok v]) : n.slots = s.slots :=
  Vector.ext fun k hk => by
    have hload := init_loads h hok ⟨k, hk⟩
    rwa [hs, unpackSlot_packSlot] at hload

/-- Settles O42: the command's write left the table's image in the region, and unpacking inverts packing. -/
theorem persistedTableReloads : Obligations.PersistedTableReloads := by
  intro s n m i hi hne hn hok hwrite hm hloaded
  exact ((exec_tableCommandEnd hi hne hn).persisted hok hwrite).init_slots hm hloaded

end Sys2Proof.Machine
end

section
/-! PROOF. The operand bytes of each command format: reading them inverts writing them (spec/30_encoding.md R62, R63,
R68). -/

namespace Sys2Proof

/-! ### Little-endian bytes -/

theorem leBytes_one (b : Byte) : leBytes 1 b = [b] := by
  simp [leBytes]

/-- The bytes of a value put together byte by byte (20_memory.md R37). -/
theorem leBytes_append_byte {w : Nat} (n : Nat) (x : BitVec w) (b : Byte) :
    leBytes (n + 1) (x ++ b) = b :: leBytes n x := by
  simp only [leBytes, List.range_succ_eq_map, List.map_cons, List.map_map, Nat.mul_zero, extract_append_byte_zero,
    List.cons.injEq, true_and]
  exact List.map_congr_left fun k _ => by
    simpa [Nat.mul_succ, Nat.add_comm] using extract_append_byte_succ x b (8 * k)

theorem leBytes_two (b1 b2 : Byte) : leBytes 2 (b2 ++ b1) = [b1, b2] := by
  simp only [leBytes_append_byte, leBytes_one]

theorem leBytes_four (b1 b2 b3 b4 : Byte) : leBytes 4 (b4 ++ b3 ++ b2 ++ b1) = [b1, b2, b3, b4] := by
  simp only [leBytes_append_byte, leBytes_one]

theorem leBytes_eight (b1 b2 b3 b4 b5 b6 b7 b8 : Byte) :
    leBytes 8 (b8 ++ b7 ++ b6 ++ b5 ++ b4 ++ b3 ++ b2 ++ b1) = [b1, b2, b3, b4, b5, b6, b7, b8] := by
  simp only [leBytes_append_byte, leBytes_one]

/-! ### Operands -/

/-- The bytes of a format's operands, which follow the opcode. -/
def Format.argBytes : (f : Format) → f.Args → List Byte
  | .f0, _ => []
  | .f8, v => [v]
  | .f16, v => leBytes 2 v
  | .f32, v => leBytes 4 v
  | .f64, v => leBytes 8 v
  | .fb, data => encodeFB data
  | .fs, data => encodeFS data
  | .fbind, (slot, pin, rev) => slot :: (leBytes 2 pin ++ [rev])
  | .frb, (slot, packed) => [slot, packed]

/-- The count operand can hold the length of the data. -/
def Format.fits : (f : Format) → f.Args → Bool
  | .fb, data => fitsFB data
  | .fs, data => fitsFS data
  | _, _ => true

theorem takeData_append (data rest : List Byte) : takeData data.length (data ++ rest) = some (data, rest) := by
  simp [takeData]

theorem takeData_eq_some {n : Nat} {bs data rest : List Byte} (h : takeData n bs = some (data, rest)) :
    data.length = n ∧ bs = data ++ rest := by
  unfold takeData at h
  split at h
  next hn =>
    cases h
    exact ⟨List.length_take_of_le hn, (List.take_append_drop n bs).symm⟩
  next => cases h

/-- Operand bytes are read back, with the bytes after them untouched. -/
theorem Format.parse_argBytes (f : Format) (a : f.Args) (rest : List Byte) (h : f.fits a = true) :
    f.parse (f.argBytes a ++ rest) = some (a, rest) := by
  cases f with
  | f0 => rfl
  | f8 => rfl
  | f16 => exact congrArg (fun v : Half => some (v, rest)) (append_extract_two a)
  | f32 => exact congrArg (fun v : Word => some (v, rest)) (append_extract_four a)
  | f64 => exact congrArg (fun v : Packet => some (v, rest)) (append_extract_eight a)
  | fb =>
    have hlen : (BitVec.ofNat 8 a.length).toNat = a.length :=
      Nat.mod_eq_of_lt (Nat.lt_succ_of_le (of_decide_eq_true h))
    change takeData (BitVec.ofNat 8 a.length).toNat (a ++ rest) = _
    rw [hlen, takeData_append]
  | fs =>
    have hlen : (BitVec.ofNat 16 a.length).toNat = a.length :=
      Nat.mod_eq_of_lt (Nat.lt_succ_of_le (of_decide_eq_true h))
    refine (congrArg (fun n : Half => takeData n.toNat (a ++ rest)) (append_extract_two _)).trans ?_
    rw [hlen, takeData_append]
  | fbind => exact congrArg (fun pin : Half => some ((a.1, pin, a.2.2), rest)) (append_extract_two a.2.1)
  | frb => rfl

/-- What is read as operands is their bytes, and the bytes left over follow them. The cases are the formats in the
order of R63, and then every byte sequence that is too short for its format. -/
theorem Format.eq_argBytes_of_parse {f : Format} {bs rest : List Byte} {a : f.Args}
    (h : f.parse bs = some (a, rest)) : f.fits a = true ∧ bs = f.argBytes a ++ rest := by
  induction f, bs using Format.parse.fun_cases with
  | case1 bs => cases h; exact ⟨rfl, rfl⟩
  | case2 b1 bs => cases h; exact ⟨rfl, rfl⟩
  | case3 b1 b2 bs => cases h; exact ⟨rfl, congrArg (· ++ rest) (leBytes_two b1 b2).symm⟩
  | case4 b1 b2 b3 b4 bs => cases h; exact ⟨rfl, congrArg (· ++ rest) (leBytes_four b1 b2 b3 b4).symm⟩
  | case5 b1 b2 b3 b4 b5 b6 b7 b8 bs =>
    cases h; exact ⟨rfl, congrArg (· ++ rest) (leBytes_eight b1 b2 b3 b4 b5 b6 b7 b8).symm⟩
  | case6 n bs =>
    obtain ⟨hlen, rfl⟩ := takeData_eq_some h
    refine ⟨decide_eq_true ?_, ?_⟩
    · have := n.isLt
      omega
    · simp [Format.argBytes, encodeFB, hlen]
  | case7 n0 n1 bs =>
    obtain ⟨hlen, rfl⟩ := takeData_eq_some h
    refine ⟨decide_eq_true ?_, ?_⟩
    · have := (n1 ++ n0 : Half).isLt
      omega
    · simp only [Format.argBytes, encodeFS, hlen, BitVec.ofNat_toNat, BitVec.setWidth_eq]
      exact congrArg (· ++ (a ++ rest)) (leBytes_two n0 n1).symm
  | case8 b1 b2 b3 b4 bs =>
    cases h; exact ⟨rfl, congrArg (fun pin => b1 :: (pin ++ b4 :: rest)) (leBytes_two b2 b3).symm⟩
  | case9 b1 b2 bs => cases h; exact ⟨rfl, rfl⟩
  | case10 => simp_all [Format.parse]

/-- `Length` reads the size of the operands from their head (30_encoding.md R68). -/
theorem Format.length_argBytes (f : Format) (a : f.Args) (rest : List Byte) (h : f.fits a = true) :
    f.length (f.argBytes a ++ rest) = some ((f.argBytes a).length + 1) := by
  cases f with
  | fb => exact (length_encodeFB (of_decide_eq_true h)).trans (by simp [Format.argBytes, encodeFB]; omega)
  | fs => exact (length_encodeFS (of_decide_eq_true h)).trans (by simp [Format.argBytes, encodeFS]; omega)
  | _ => rfl

end Sys2Proof
end

section
/-! PROOF. The rows of the opcode map: which one an opcode byte matches, and how a row encodes the commands it builds
(spec/30_encoding.md R64 to R66, R75). -/

namespace Sys2Proof

/-! ### Which row an opcode byte matches (30_encoding.md R75) -/

/-- The mask of a row leaves bit 6 free for the codec rows, whose pattern has bit 7 clear. -/
theorem mask_of_mem_opcodeTable :
    ∀ r ∈ opcodeTable, r.mask = if r.pattern.getLsbD 7 then 0xFF#8 else 0xBF#8 := by decide

theorem Row.matches_eq {r : Row} (hr : r ∈ opcodeTable) (op : Byte) :
    r.matches op = if r.pattern.getLsbD 7 then op == r.pattern else op &&& 0xBF#8 == r.pattern := by
  rw [Row.matches, mask_of_mem_opcodeTable r hr]
  split
  · rw [show (0xFF#8 : Byte) = BitVec.allOnes 8 from rfl, BitVec.and_allOnes]
  · rfl

/-- The only pattern that a row matching the opcode byte can have. -/
def opcodePattern (op : Byte) : Byte := if op.getLsbD 7 then op else op &&& 0xBF#8

theorem getLsbD_opcodePattern (op : Byte) : (opcodePattern op).getLsbD 7 = op.getLsbD 7 := by
  unfold opcodePattern
  split <;> simp

/-- A matching row has the opcode byte's bit 7 in its pattern, which decides whether bit 6 is free. -/
theorem Row.matches_iff {r : Row} (hr : r ∈ opcodeTable) (op : Byte) :
    r.matches op = true ↔ r.pattern = opcodePattern op := by
  have hbit : r.pattern = opcodePattern op → r.pattern.getLsbD 7 = op.getLsbD 7 := fun h => by
    rw [h, getLsbD_opcodePattern]
  rw [Row.matches_eq hr]
  by_cases h7 : r.pattern.getLsbD 7 = op.getLsbD 7
  · rw [h7, opcodePattern]
    split <;> rw [beq_iff_eq, eq_comm]
  · refine iff_of_false (fun h => h7 ?_) fun h => h7 (hbit h)
    split at h
    · rw [eq_of_beq h]
    · simp [← eq_of_beq h]

theorem opcodeTable_patterns_nodup : (opcodeTable.map (·.pattern)).Nodup := by decide

theorem opcodeTable_filter_length_le_one (op : Byte) : (opcodeTable.filter (·.matches op)).length ≤ 1 := by
  have h := List.nodup_iff_count_le_one.1 opcodeTable_patterns_nodup (opcodePattern op)
  rw [List.count, List.countP_map, List.countP_eq_length_filter] at h
  rwa [List.filter_congr fun r hr => ?_]
  rw [Bool.eq_iff_iff, Row.matches_iff hr]
  simp

theorem opcodeRow_eq_none_iff (op : Byte) :
    opcodeRow op = none ↔ opcodePattern op ∉ opcodeTable.map (·.pattern) := by
  simp only [opcodeRow, List.find?_eq_none, List.mem_map, not_exists, not_and]
  exact forall₂_congr fun r hr => not_congr (Row.matches_iff hr op)

theorem mem_of_opcodeRow {op : Byte} {r : Row} (h : opcodeRow op = some r) : r ∈ opcodeTable :=
  List.mem_of_find?_eq_some h

theorem pattern_of_opcodeRow {op : Byte} {r : Row} (h : opcodeRow op = some r) : r.pattern = opcodePattern op :=
  (Row.matches_iff (mem_of_opcodeRow h) op).1 (List.find?_some (p := fun r : Row => r.matches op) h)

/-! ### The two parts of a row's encoding -/

/-- The opcode byte of a row for a codec (30_encoding.md R64). -/
def Row.opcode (r : Row) (u : CodecId) : Byte := if r.pattern.getLsbD 7 then r.pattern else codecOpcode u r.pattern

/-- Each row of the map encodes to its own opcode and the operands of its format (30_encoding.md R65, R66). -/
theorem encode_build {r : Row} (hr : r ∈ opcodeTable) (u : CodecId) (a : r.format.Args) :
    encode (r.build u a) = r.opcode u :: r.format.argBytes a := by
  fin_cases hr <;> rfl

/-- The commands that have an encoding are those whose operands fit the row's format (30_encoding.md R63). -/
theorem wf_build {r : Row} (hr : r ∈ opcodeTable) (u : CodecId) (a : r.format.Args) :
    (r.build u a).wf = r.format.fits a := by
  fin_cases hr <;> rfl

theorem opcodeRow_opcode {r : Row} (hr : r ∈ opcodeTable) (u : CodecId) : opcodeRow (r.opcode u) = some r := by
  fin_cases hr <;> cases u <;> rfl

/-- Bit 6 of a codec row's opcode selects the codec; the other rows have none (30_encoding.md R64). -/
theorem build_opcodeCodec_opcode {r : Row} (hr : r ∈ opcodeTable) (u : CodecId) (a : r.format.Args) :
    r.build (opcodeCodec (r.opcode u)) a = r.build u a := by
  fin_cases hr <;> cases u <;> rfl

/-- Bit 6 of a codec opcode is the codec (30_encoding.md R64). -/
theorem codecOpcode_opcodeCodec (op : Byte) :
    op.getLsbD 7 = false → codecOpcode (opcodeCodec op) (op &&& 0xBF#8) = op := by
  revert op
  decide

/-- The row's opcode for the codec that the opcode byte selects is that byte itself. -/
theorem opcode_of_opcodeRow {op : Byte} {r : Row} (h : opcodeRow op = some r) : r.opcode (opcodeCodec op) = op := by
  rw [Row.opcode, pattern_of_opcodeRow h, getLsbD_opcodePattern, opcodePattern]
  split
  · rfl
  next h7 => exact codecOpcode_opcodeCodec op (Bool.eq_false_of_not_eq_true h7)

/-- Every command is built by a row, here named by its pattern (30_encoding.md R65, R66). -/
theorem exists_row_build (i : Instr) : ∃ op r, opcodeRow op = some r ∧ ∃ u a, r.build u a = i := by
  cases i with
  | reset u => exact ⟨0x00, _, rfl, u, (), rfl⟩
  | setType u t => exact ⟨0x01, _, rfl, u, t, rfl⟩
  | getType u => exact ⟨0x02, _, rfl, u, (), rfl⟩
  | getLength u => exact ⟨0x03, _, rfl, u, (), rfl⟩
  | addFixedB u v => exact ⟨0x04, _, rfl, u, v, rfl⟩
  | addFixedH u v => exact ⟨0x05, _, rfl, u, v, rfl⟩
  | addFixedW u v => exact ⟨0x06, _, rfl, u, v, rfl⟩
  | getFixedB u => exact ⟨0x08, _, rfl, u, (), rfl⟩
  | getFixedH u => exact ⟨0x09, _, rfl, u, (), rfl⟩
  | getFixedW u => exact ⟨0x0A, _, rfl, u, (), rfl⟩
  | addBytes u data => exact ⟨0x0C, _, rfl, u, data, rfl⟩
  | getBytes u n => exact ⟨0x0D, _, rfl, u, n, rfl⟩
  | addString u str => exact ⟨0x0E, _, rfl, u, str, rfl⟩
  | getString u => exact ⟨0x0F, _, rfl, u, (), rfl⟩
  | send u => exact ⟨0x10, _, rfl, u, (), rfl⟩
  | sendFw str => exact ⟨0x80, _, rfl, .tx, str, rfl⟩
  | sendPv str => exact ⟨0x81, _, rfl, .tx, str, rfl⟩
  | sendLog str => exact ⟨0x82, _, rfl, .tx, str, rfl⟩
  | rxByte b => exact ⟨0x83, _, rfl, .tx, b, rfl⟩
  | init => exact ⟨0x90, _, rfl, .tx, (), rfl⟩
  | bind slot pin rev => exact ⟨0x91, _, rfl, .tx, (slot, pin, rev), rfl⟩
  | clear => exact ⟨0x92, _, rfl, .tx, (), rfl⟩
  | rbind slot packed => exact ⟨0x93, _, rfl, .tx, (slot, packed), rfl⟩
  | tick now => exact ⟨0xA0, _, rfl, .tx, now, rfl⟩
  | build => exact ⟨0xA1, _, rfl, .tx, (), rfl⟩
  | xmit packet => exact ⟨0xA2, _, rfl, .tx, packet, rfl⟩

/-- A well-formed command's bytes are the opcode of a row and operands that fit its format. -/
theorem exists_row_of_wf {i : Instr} (hwf : i.wf = true) : ∃ op r a,
    opcodeRow op = some r ∧ r.format.fits a = true ∧ r.build (opcodeCodec op) a = i ∧
      encode i = op :: r.format.argBytes a := by
  obtain ⟨op, r, hop, u, a, rfl⟩ := exists_row_build i
  have hr := mem_of_opcodeRow hop
  exact ⟨r.opcode u, r, a, opcodeRow_opcode hr u, wf_build hr u a ▸ hwf, build_opcodeCodec_opcode hr u a,
    encode_build hr u a⟩

end Sys2Proof
end

section
/-! PROOF. The decoder and the encoder agree on every command and every byte sequence (spec/30_encoding.md R62 to R70,
R75). -/

namespace Sys2Proof

/-! ### What the decoder answers -/

theorem decode_cons_of_parse {op : Byte} {bs rest : List Byte} {r : Row} {a : r.format.Args}
    (hr : opcodeRow op = some r) (ha : r.format.parse bs = some (a, rest)) :
    decode (op :: bs) = .command (r.build (opcodeCodec op) a) rest := by
  simp only [decode, hr, ha]

theorem decode_cons_eq_reserved_iff (op : Byte) (bs : List Byte) :
    decode (op :: bs) = .reserved op bs ↔ opcodeRow op = none := by
  cases hr : opcodeRow op with
  | none => simp only [decode, hr]
  | some r => cases ha : r.format.parse bs <;> simp [decode, hr, ha]

/-- Everything the decoder can answer: a command of a row with its operands, a reserved opcode, or the offset where
the bytes end. -/
theorem decode_cases (bs : List Byte) :
    (∃ op tail r a rest, bs = op :: tail ∧ opcodeRow op = some r ∧ r.format.parse tail = some (a, rest) ∧
      decode bs = .command (r.build (opcodeCodec op) a) rest) ∨
    (∃ op tail, bs = op :: tail ∧ opcodeRow op = none ∧ decode bs = .reserved op tail) ∨
    decode bs = .incomplete bs.length := by
  cases bs with
  | nil => exact .inr (.inr rfl)
  | cons op tail =>
    cases hr : opcodeRow op with
    | none => exact .inr (.inl ⟨op, tail, rfl, hr, (decode_cons_eq_reserved_iff op tail).2 hr⟩)
    | some r =>
      cases ha : r.format.parse tail with
      | none => exact .inr (.inr (by simp only [decode, hr, ha, List.length_cons]))
      | some p => exact .inl ⟨op, tail, r, p.1, p.2, rfl, hr, ha, decode_cons_of_parse hr ha⟩

/-! ### Decoding and encoding -/

/-- Settles O5: the command's row is found by its opcode byte, and its operands are read back. -/
theorem decodeOfEncode : Obligations.DecodeOfEncode := by
  intro i rest hwf
  obtain ⟨op, r, a, hr, hfits, rfl, henc⟩ := exists_row_of_wf hwf
  rw [henc, List.cons_append]
  exact decode_cons_of_parse hr (r.format.parse_argBytes a rest hfits)

/-- Settles O6: the row that the opcode byte matches encodes to that byte, and the operands to the bytes read. -/
theorem encodeOfDecode : Obligations.EncodeOfDecode := by
  intro bs rest i h
  obtain ⟨op, tail, r, a, rest', rfl, hr, ha, hd⟩ | ⟨op, tail, -, -, hd⟩ | hd := decode_cases bs
  · cases hd.symm.trans h
    obtain ⟨hfits, rfl⟩ := Format.eq_argBytes_of_parse ha
    have hmem := mem_of_opcodeRow hr
    rw [wf_build hmem, encode_build hmem, opcode_of_opcodeRow hr]
    exact ⟨hfits, rfl⟩
  · cases hd.symm.trans h
  · cases hd.symm.trans h

/-- Settles O8: a reserved opcode is one whose pattern no row has, which is checked against R69 byte by byte. -/
theorem reservedOpcodesRaiseIllegalCommand : Obligations.ReservedOpcodesRaiseIllegalCommand := by
  intro op rest
  refine ⟨?_, fun s _ hd => ?_⟩
  · rw [decode_cons_eq_reserved_iff, opcodeRow_eq_none_iff]
    revert op
    decide
  · rw [Machine.step, hd]
    rfl

/-- Settles O9: were a command or a reserved opcode read from the cut bytes, the whole encoding, which begins with
them, would be read the same way, with bytes left over or as reserved. -/
theorem truncatedCommandRefused : Obligations.TruncatedCommandRefused := by
  intro i s missing hwf hne hs
  have hfull : decode (encode i) = .command i [] := by simpa using decodeOfEncode i [] hwf
  obtain ⟨_, _, _, _, rest, -, -, -, hd⟩ | ⟨op, tail, hc, hr, -⟩ | hd := decode_cases s.commands
  · obtain ⟨hwf', hc⟩ := encodeOfDecode _ _ _ hd
    have hagain := decodeOfEncode _ (rest ++ missing) hwf'
    rw [← List.append_assoc, ← hc, hs, hfull] at hagain
    obtain ⟨-, hnil⟩ := Decoded.command.inj hagain
    exact absurd (List.append_eq_nil_iff.1 hnil.symm).2 hne
  · rw [← hs, hc, List.cons_append, (decode_cons_eq_reserved_iff op _).2 hr] at hfull
    cases hfull
  · rw [Machine.step, hd]

/-- `Length` of a well-formed command does not depend on the bytes after it (30_encoding.md R68). -/
theorem commandLength_encode_append {i : Instr} (hwf : i.wf = true) (rest : List Byte) :
    commandLength (encode i ++ rest) = some (encode i).length := by
  obtain ⟨op, r, a, hr, hfits, -, henc⟩ := exists_row_of_wf hwf
  rw [henc]
  exact commandLength_cons hr (r.format.length_argBytes a rest hfits)

/-- Settles O10: the bytes taken are the command's encoding, whose length `Length` reads. -/
theorem decodeTakesCommandLength : Obligations.DecodeTakesCommandLength := by
  intro bs rest i h
  obtain ⟨hwf, rfl⟩ := encodeOfDecode _ _ _ h
  exact ⟨_, commandLength_encode_append hwf rest, by simp, by simp⟩

/-- Settles O7: the pattern of a matching row is fixed by the opcode byte, and no two rows have the same pattern. -/
theorem opcodeRowsDisjoint : Obligations.OpcodeRowsDisjoint :=
  ⟨fun _ hr op => Row.matches_eq hr op, opcodeTable_filter_length_le_one⟩

/-- Settles O11 by running the decoder on the six words. -/
theorem writtenWordsDecode : Obligations.WrittenWordsDecode := by
  unfold Obligations.WrittenWordsDecode
  decide

end Sys2Proof
end

section
/-! PROOF. The bits of a binding byte under both layouts (spec/30_encoding.md R57, R58). -/

namespace Sys2Proof.Machine

theorem pinCode_pinOf (c : BitVec 7) : pinCode (pinOf c) = c := by
  unfold pinOf
  split
  next h => exact h.symm
  next h =>
    have hpos : c.toNat ≠ 0 := fun h0 => h (BitVec.eq_of_toNat_eq h0)
    rw [pinCode, Nat.sub_add_cancel (Nat.pos_of_ne_zero hpos), BitVec.ofNat_toNat, BitVec.setWidth_eq]

theorem bit_getLsbD (b : Byte) (k : Nat) : bit (b.getLsbD k) = b.extractLsb' k 1 := by
  rw [BitVec.getLsbD_eq_extractLsb']
  generalize b.extractLsb' k 1 = x
  revert x
  decide

/-- The two fields of a binding byte, put together again, are the byte (30_encoding.md R58). -/
@[simp] theorem packSlot_unpackSlot (layout : BindingByteLayout) (b : Byte) :
    packSlot layout (unpackSlot layout b) = b := by
  cases layout with
  | pinLow =>
    rw [packSlot, unpackSlot, pinCode_pinOf, bit_getLsbD]
    exact BitVec.extractLsb'_append_extractLsb'
  | pinHigh =>
    rw [packSlot, unpackSlot, pinCode_pinOf, bit_getLsbD]
    exact BitVec.extractLsb'_append_extractLsb'

/-- The number of a bound slot's pin code (30_encoding.md R57). -/
theorem toNat_pinCode_some (n : Fin 127) : (pinCode (some n)).toNat = n.val + 1 :=
  Nat.mod_eq_of_lt (Nat.succ_lt_succ n.isLt)

theorem toNat_append_eq_add {n m : Nat} (x : BitVec n) (y : BitVec m) :
    (x ++ y).toNat = 2 ^ m * x.toNat + y.toNat := by
  rw [BitVec.toNat_append, ← Nat.shiftLeft_add_eq_or_of_lt y.isLt, Nat.shiftLeft_eq, Nat.mul_comm]

/-- Settles O33: the field in the higher bits counts for a multiple of 128 or of 2. -/
theorem bindingByteBits : Obligations.BindingByteBits := by
  refine ⟨rfl, fun p r => ?_, unpackSlot_packSlot, packSlot_unpackSlot⟩
  simp only [packSlot, toNat_append_eq_add]
  cases p with
  | none => cases r <;> exact ⟨rfl, rfl⟩
  | some n => cases r <;> simp [toNat_pinCode_some, bit]

end Sys2Proof.Machine
end

section
/-! PROOF. The header commands, RESET and SEND of the codecs (spec/40_codec.md R77 to R82, R93). -/

namespace Sys2Proof.Machine

/-! ### What RESET and SETTYPE write -/

@[simp] theorem State.rewind_cursor (s : State) (u : CodecId) : ((s.rewind u).codec u).cursor = 4 := by
  simp [State.rewind_eq]

@[simp] theorem State.rewind_lengthByte (s : State) (u : CodecId) : (s.rewind u).byte u 2 = 1#8 := by
  rw [State.rewind_eq, State.byte_setCodec_same, Codec.byte_setByte, if_pos ⟨rfl, Nat.le_refl 2⟩]

theorem State.setType_typeByte (s : State) (t : Byte) : (s.setByte .tx 3 t).byte .tx 3 = t :=
  (Codec.byte_setByte s.tx .tx 3 3 t).trans (if_pos ⟨rfl, by omega⟩)

/-- Settles O13: both codecs are rewound in the same way, and RX is rearmed besides. -/
theorem resetRewindsCodec : Obligations.ResetRewindsCodec :=
  ⟨rfl, rfl, fun s =>
    ⟨⟨_, rfl, s.rewind_cursor .tx, s.rewind_lengthByte .tx, fun _ => s.byte_rewind_of_ne .tx, rfl, rfl⟩,
      _, rfl, s.rewind_cursor .rx, s.rewind_lengthByte .rx, rfl, rfl, fun _ => s.byte_rewind_of_ne .rx, rfl⟩⟩

/-- Settles O14: on TX one byte write, on RX the refusal of R77. -/
theorem setTypeWritesTypeByte : Obligations.SetTypeWritesTypeByte := fun s t =>
  ⟨rfl, rfl,
    ⟨_, rfl, s.setType_typeByte t, fun _ => s.byte_setType_of_ne t, Codec.setByte_cursor s.tx 3 t, rfl, rfl⟩, rfl⟩

/-- Settles O15: each mutating function asks for TX first. -/
theorem rxRefusesMutatingFunctions : Obligations.RxRefusesMutatingFunctions := by
  intro s i h
  cases i with
  | setType | addFixedB | addFixedH | addFixedW | addBytes | addString | send => cases h; rfl
  | _ => cases h

/-- Settles O16: only on RX does the type byte need a complete frame. -/
theorem getTypeReturnsTypeByte : Obligations.GetTypeReturnsTypeByte := by
  refine ⟨rfl, rfl, fun s => ⟨rfl, fun hs => ?_, fun hs => ?_⟩⟩
  · exact congrArg Host.Outcome.next (if_neg fun h => h.2 hs)
  · exact congrArg Host.Outcome.next (if_pos ⟨rfl, hs⟩)

/-- Settles O17: GETLENGTH has no branch. -/
theorem getLengthReturnsLengthByte : Obligations.GetLengthReturnsLengthByte := fun _ _ => rfl

/-- SEND of a frame that lies inside the buffer (40_codec.md R93). -/
theorem execSend_tx {s : State} (hlen : (s.byte .tx 2).toNat ≤ 253) :
    execSend .tx s =
      .next ((s.emit (.transportWrite (s.bytes .tx 0 ((s.byte .tx 2).toNat + 3)))).answer (.ok .unit)) := by
  simp only [execSend, s.bytes?_of_le .tx (show 0 + ((s.byte .tx 2).toNat + 3) ≤ 256 by omega), State.ret_eq]

/-- Settles O27: the frame ends inside the buffer, so SEND hands it over. -/
theorem sendWritesFrame : Obligations.SendWritesFrame := by
  refine ⟨rfl, rfl, fun s hlen => ?_, fun _ => rfl⟩
  have hsend := execSend_tx hlen
  simp only [State.bytes, Nat.zero_add] at hsend
  exact hsend

end Sys2Proof.Machine
end

section
/-! PROOF. The append commands (spec/40_codec.md R83 to R91). -/

namespace Sys2Proof.Machine

/-- An append of bytes that fit (40_codec.md R83 to R91). -/
theorem State.addField_of_fits {s : State} {bs : List Byte} (hfits : s.tx.cursor + bs.length ≤ 256) :
    s.addField bs = (s.append bs).answer (.ok .unit) :=
  if_neg (Nat.not_lt.2 hfits)

theorem State.addField_appended {s : State} {bs : List Byte} (hs : CursorsInRange s)
    (hfits : s.tx.cursor + bs.length ≤ 256) : Appended s (s.addField bs) bs := by
  rw [State.addField_of_fits hfits]
  exact State.append_spec hs.txLow

theorem stringField_eq (str : List Byte) :
    stringField str = BitVec.ofNat 8 (min str.length 255) :: str.take 255 := by
  simp [stringField, Config.strMax, Nat.min_comm]

/-- Settles O18: each width appends its little-endian bytes. -/
theorem addFixedAppendsLittleEndian : Obligations.AddFixedAppendsLittleEndian := fun _ hs =>
  ⟨fun v hfits => ⟨_, rfl, leBytes_one v ▸ State.addField_appended (bs := leBytes 1 v) hs hfits⟩,
    fun v hfits => ⟨_, rfl, State.addField_appended (bs := leBytes 2 v) hs hfits⟩,
    fun v hfits => ⟨_, rfl, State.addField_appended (bs := leBytes 4 v) hs hfits⟩⟩

/-- Settles O19: the data are appended as they are. -/
theorem addBytesAppendsData : Obligations.AddBytesAppendsData := fun _ _ hs hfits =>
  ⟨_, rfl, State.addField_appended hs hfits⟩

/-- Settles O20: what is appended is the string field of R56. -/
theorem addStringAppendsPrefixAndBody : Obligations.AddStringAppendsPrefixAndBody := by
  intro s str hs hfits
  rw [← stringField_eq]
  exact ⟨_, rfl, State.addField_appended hs (by rw [stringField_length]; omega)⟩

end Sys2Proof.Machine
end

section
/-! PROOF. The read commands (spec/40_codec.md R76, R86 to R92). -/

namespace Sys2Proof.Machine

variable {s : State}

/-- A read inside a complete frame (40_codec.md R76, R86 to R90). -/
theorem State.fetch_ready {k : Nat} (value : List Byte → Value) (hs : s.rxState = .ready)
    (hlen : (s.byte .rx 2).toNat ≤ 253) (hin : s.rx.cursor + k ≤ (s.byte .rx 2).toNat + 3) :
    s.fetch .rx k value = .next ({ s with rx := ⟨s.rx.buf, s.rx.cursor + k⟩ }.answer
      (.ok (value (s.bytes .rx s.rx.cursor k)))) :=
  State.fetch_next value (by rw [State.remaining_ready hs]; omega) (.inr (by rw [State.codec_rx]; omega))

/-- A string field inside a complete frame (40_codec.md R92). -/
theorem execGetString_ready (hs : s.rxState = .ready) (hlen : (s.byte .rx 2).toNat ≤ 253)
    (hin : s.rx.cursor + (1 + (s.byte .rx s.rx.cursor).toNat) ≤ (s.byte .rx 2).toNat + 3) :
    execGetString .rx s =
      .next ({ s with rx := ⟨s.rx.buf, s.rx.cursor + (1 + (s.byte .rx s.rx.cursor).toNat)⟩ }.answer
        (.ok (.bytes (s.bytes .rx (s.rx.cursor + 1) (s.byte .rx s.rx.cursor).toNat)))) := by
  have hfirst : s.bytes? .rx s.rx.cursor 1 = some [s.byte .rx s.rx.cursor] := s.bytes?_of_le .rx (by omega)
  have hvalue : leValue [s.byte .rx s.rx.cursor] = (s.byte .rx s.rx.cursor).toNat := by simp [leValue]
  rw [execGetString, if_neg (by rw [State.remaining_ready hs]; omega), State.codec_rx, hfirst]
  simp only [hvalue]
  exact (State.fetch_ready _ hs hlen hin).trans (by rw [Nat.add_comm 1, State.bytes_succ]; rfl)

theorem execGetString_truncated {u : CodecId} (hr : s.remaining u < 1) :
    execGetString u s = .next (s.answer (.err .truncatedMessage)) := if_pos hr

/-- Settles O22: the value of the bytes at the cursor, for each width. -/
theorem getFixedReturnsLittleEndian : Obligations.GetFixedReturnsLittleEndian := by
  intro s hs hlen
  refine ⟨fun hin => ?_, fun hin => ?_, fun hin => ?_⟩
  · exact (State.fetch_ready _ hs hlen hin).trans (by rw [← leValue_one (s.byte .rx s.rx.cursor)]; rfl)
  · exact (State.fetch_ready _ hs hlen hin).trans (by rw [← leValue_two]; rfl)
  · exact (State.fetch_ready _ hs hlen hin).trans (by rw [← leValue_four]; rfl)

/-- Settles O23: a read inside a complete frame, and a read of nothing, which needs no frame. -/
theorem getBytesReturnsBytes : Obligations.GetBytesReturnsBytes := by
  intro s
  refine ⟨fun n hs hlen hin => State.fetch_ready _ hs hlen hin, fun u => ?_⟩
  refine (State.fetch_next (n := 0) _ (Nat.zero_le _) (.inl rfl)).trans ?_
  cases u <;> rfl

/-- Settles O24: the length byte says how many bytes of the frame follow it. -/
theorem getStringReturnsBody : Obligations.GetStringReturnsBody := fun _ hs hlen hin =>
  execGetString_ready hs hlen hin

/-- Settles O26: without a frame nothing remains to be read. -/
theorem noFrameNoRead : Obligations.NoFrameNoRead := by
  intro s u hframe
  have hnone : s.remaining u = 0 := State.remaining_noFrame hframe
  have short {k : Nat} (hk : 0 < k) : s.remaining u < k := hnone ▸ hk
  refine ⟨State.fetch_truncated _ (short (by omega)), State.fetch_truncated _ (short (by omega)),
    State.fetch_truncated _ (short (by omega)), execGetString_truncated (short (by omega)), fun n hn => ?_⟩
  exact State.fetch_truncated _ (short (Nat.pos_of_ne_zero fun h => hn (BitVec.eq_of_toNat_eq h)))

end Sys2Proof.Machine
end

section
/-! PROOF. Messages in a buffer: their fields, and the frame that holds them (spec/20_memory.md R42, R43;
spec/30_encoding.md R54; spec/40_codec.md R95). -/

namespace Sys2Proof.Machine

/-! ### Sequences of commands -/

theorem runAll_cons {i : Instr} {is : List Instr} {s n : State} (h : exec i s = .next n) :
    runAll (i :: is) s = runAll is n := by
  rw [runAll, h]

theorem runAll_append {is js : List Instr} {s n : State} (h : runAll is s = .next n) :
    runAll (is ++ js) s = runAll js n := by
  induction is generalizing s with
  | nil => cases h; rfl
  | cons i is ih =>
    cases hi : exec i s with
    | next m =>
      rw [runAll_cons hi] at h
      rw [List.cons_append, runAll_cons hi, ih h]
    | _ => rw [runAll, hi] at h; cases h

/-! ### Ranges of bytes -/

theorem State.bytes_add (s : State) (u : CodecId) (a m k : Nat) :
    s.bytes u a (m + k) = s.bytes u a m ++ s.bytes u (a + m) k := by
  simp [State.bytes, List.range_add, Nat.add_assoc]

theorem State.bytes_congr {s n : State} {u : CodecId} {a k : Nat}
    (h : ∀ b, a ≤ b → b < a + k → n.byte u b = s.byte u b) : n.bytes u a k = s.bytes u a k :=
  List.map_congr_left fun j hj => h _ (Nat.le_add_right a j) (Nat.add_lt_add_left (List.mem_range.1 hj) a)

/-! ### Fields -/

/-- The bytes that stand for a field in a message (30_encoding.md R55, R56). -/
def Field.bytes : Field → List Byte
  | .fixedB v => leBytes 1 v
  | .fixedH v => leBytes 2 v
  | .fixedW v => leBytes 4 v
  | .string str => stringField str

@[simp] theorem Field.bytes_length (f : Field) : f.bytes.length = f.size := by
  cases f with
  | string str => exact stringField_length str
  | _ => exact leBytes_length _ _

/-- The bytes of a sequence of fields, which stand after the header of a message. -/
def fieldBytes (fields : List Field) : List Byte := fields.flatMap Field.bytes

@[simp] theorem fieldBytes_cons (f : Field) (fields : List Field) :
    fieldBytes (f :: fields) = f.bytes ++ fieldBytes fields := List.flatMap_cons

theorem fieldBytes_length (fields : List Field) : (fieldBytes fields).length = (fields.map Field.size).sum := by
  simp [fieldBytes, List.length_flatMap]

/-! ### Messages -/

/-- The buffer of codec `u` holds the message with type `t` whose fields have the bytes `body`. -/
structure HoldsMessage (s : State) (u : CodecId) (t : Byte) (body : List Byte) : Prop where
  lengthByte : s.byte u 2 = BitVec.ofNat 8 (body.length + 1)
  typeByte : s.byte u 3 = t
  body : s.bytes u 4 body.length = body

/-- The frame of a message (30_encoding.md R54). -/
def messageFrame (t : Byte) (body : List Byte) : List Byte :=
  0x24#8 :: 0x24#8 :: BitVec.ofNat 8 (body.length + 1) :: t :: body

namespace HoldsMessage

variable {s n : State} {u : CodecId} {t : Byte} {body : List Byte}

theorem congr (h : HoldsMessage s u t body) (hn : n.codec u = s.codec u) : HoldsMessage n u t body := by
  have hbyte (a : Nat) : n.byte u a = s.byte u a := congrArg (Codec.byte · u a) hn
  exact ⟨(hbyte 2).trans h.lengthByte, (hbyte 3).trans h.typeByte,
    (State.bytes_congr fun a _ _ => hbyte a).trans h.body⟩

theorem lengthByte_toNat (h : HoldsMessage s u t body) (hfits : body.length ≤ 252) :
    (s.byte u 2).toNat = body.length + 1 := by
  rw [h.lengthByte]
  exact Nat.mod_eq_of_lt (by omega)

theorem frame (h : HoldsMessage s u t body) : s.bytes u 0 (body.length + 4) = messageFrame t body := by
  have sentinel {a : Nat} (ha : a < 2) : s.byte u a = 0x24#8 := Codec.byte_sentinel _ u ha
  rw [State.bytes_succ, State.bytes_succ, State.bytes_succ, State.bytes_succ, sentinel (by omega), sentinel (by omega),
    h.lengthByte, h.typeByte, h.body, messageFrame]

end HoldsMessage

end Sys2Proof.Machine
end

section
/-! PROOF. Building and sending a message (spec/40_codec.md R95). -/

namespace Sys2Proof.Machine

/-- Adding a field appends its bytes (40_codec.md R83 to R91). -/
theorem exec_add (f : Field) (s : State) : exec f.add s = .next (s.addField f.bytes) := by
  cases f <;> rfl

/-- `m` holds the beginning of a message in TX, ready for its next field, and is otherwise as `s`. -/
structure Building (s m : State) (t : Byte) (body : List Byte) : Prop where
  message : HoldsMessage m .tx t body
  cursor : m.tx.cursor = 4 + body.length
  rest : OnlyTx s m

theorem OnlyTx.trans {s m n : State} (hm : OnlyTx s m) (hn : OnlyTx m n) : OnlyTx s n := by
  rw [hn, hm]
  rfl

namespace Building

variable {s m : State} {t : Byte} {body : List Byte}

/-- RESET and SETTYPE begin a message without fields. -/
theorem start (s : State) (t : Byte) :
    ∃ m, runAll [.reset .tx, .setType .tx t] s = .next m ∧ Building s m t [] := by
  obtain ⟨-, -, hreset⟩ := resetRewindsCodec
  obtain ⟨⟨m, hm, hcursor, hlen, -, hrest, -⟩, -⟩ := hreset s
  obtain ⟨-, -, ⟨n, hn, htype, hkept, hcursor', hrest', -⟩, -⟩ := setTypeWritesTypeByte m t
  exact ⟨n, by rw [runAll_cons hm, runAll_cons hn]; rfl,
    ⟨(hkept 2 (by omega)).trans hlen, htype, rfl⟩, hcursor'.trans hcursor, hrest.trans hrest'⟩

/-- An append adds its bytes to the end of the message. -/
theorem append {n : State} {bs : List Byte} (h : Building s m t body) (hn : Appended m n bs) :
    Building s n t (body ++ bs) := by
  have hcursor : n.tx.cursor = 4 + (body ++ bs).length := by
    rw [hn.cursor, h.cursor, List.length_append, Nat.add_assoc]
  have hkept {a : Nat} (ha : 3 ≤ a) (hlt : a < 4 + body.length) : n.byte .tx a = m.byte .tx a :=
    hn.otherBytes a (by omega) (.inl (h.cursor ▸ hlt))
  refine ⟨⟨?_, ?_, ?_⟩, hcursor, h.rest.trans hn.rest⟩
  · rw [hn.length, hcursor]
    congr 1
    omega
  · rw [hkept (Nat.le_refl 3) (by omega), h.message.typeByte]
  · rw [List.length_append, State.bytes_add, State.bytes_congr fun a ha hlt => hkept (by omega) hlt, h.message.body,
      ← h.cursor, hn.stored]

theorem addField {f : Field} (h : Building s m t body) (hfits : body.length + f.size ≤ 252) :
    ∃ n, exec f.add m = .next n ∧ Building s n t (body ++ f.bytes) := by
  have hcursor := h.cursor
  refine ⟨_, exec_add f m, h.append ?_⟩
  rw [State.addField_of_fits (by rw [Field.bytes_length]; omega)]
  exact State.append_spec (by omega)

theorem addFields {fields : List Field} (h : Building s m t body)
    (hfits : body.length + (fieldBytes fields).length ≤ 252) :
    ∃ n, runAll (fields.map Field.add) m = .next n ∧ Building s n t (body ++ fieldBytes fields) := by
  induction fields generalizing m body with
  | nil => exact ⟨m, rfl, by simpa [fieldBytes] using h⟩
  | cons f fields ih =>
    simp only [fieldBytes_cons, List.length_append, Field.bytes_length] at hfits
    obtain ⟨n, hn, hnext⟩ := h.addField (f := f) (by omega)
    obtain ⟨k, hk, hlast⟩ := ih hnext (by simp only [List.length_append, Field.bytes_length]; omega)
    refine ⟨k, (runAll_cons hn).trans hk, ?_⟩
    rwa [fieldBytes_cons, ← List.append_assoc]

/-- SEND hands over the frame of the message. -/
theorem send (h : Building s m t body) (hfits : body.length ≤ 252) :
    exec (.send .tx) m = .next ((m.emit (.transportWrite (messageFrame t body))).answer (.ok .unit)) := by
  have hlen := h.message.lengthByte_toNat hfits
  refine (execSend_tx (by omega)).trans ?_
  rw [hlen, Nat.add_assoc, h.message.frame]

end Building

/-- What building and sending a message that fits does (40_codec.md R95). -/
theorem build_and_send (s : State) (t : Byte) {fields : List Field} (hfits : (fieldBytes fields).length ≤ 252) :
    ∃ built, runAll (.reset .tx :: .setType .tx t :: fields.map Field.add ++ [.send .tx]) s = .next built ∧
      built.effects = s.effects ++ [.transportWrite (messageFrame t (fieldBytes fields))] ∧
      built.rxState = s.rxState ∧ HoldsMessage built .tx t (fieldBytes fields) := by
  obtain ⟨m, hm, hstart⟩ := Building.start s t
  obtain ⟨n, hn, hbuilt⟩ := hstart.addFields (fields := fields) (by simpa using hfits)
  rw [List.nil_append] at hbuilt
  refine ⟨_, (runAll_append ((runAll_append hm).trans hn)).trans (runAll_cons (hbuilt.send hfits)), ?_, ?_,
    hbuilt.message.congr rfl⟩
  · rw [State.answer_effects, State.emit_effects, hbuilt.rest]
  · rw [State.answer_rxState, State.emit_rxState, hbuilt.rest]

end Sys2Proof.Machine
end

section
/-! PROOF. Receiving the frame of a message (spec/41_channel.md R100; spec/40_codec.md R95). -/

namespace Sys2Proof.Machine

variable {s n : State}

/-! ### The body of a frame -/

/-- RXBYTE with the last byte of a body (41_channel.md R100). -/
theorem exec_rxByte_last {b : Byte} (hs : s.rxState = .body) (hin : s.rxCount < 256) (hlast : s.RxLast b) :
    exec (.rxByte b) s = .next ((s.rxCompleted b).answer (.ok (.complete ((s.rxCompleted b).byte .rx 3)))) := by
  simp only [exec, execRxByte, hs, if_pos hin]
  exact congrArg Host.Outcome.next (if_pos hlast)

/-- RXBYTE with any earlier byte of a body (41_channel.md R100). -/
theorem exec_rxByte_more {b : Byte} (hs : s.rxState = .body) (hin : s.rxCount < 256) (hmore : ¬ s.RxLast b) :
    exec (.rxByte b) s = .next ((s.rxStored b).answer (.ok .pending)) := by
  simp only [exec, execRxByte, hs, if_pos hin]
  exact congrArg Host.Outcome.next (if_neg hmore)

/-- `n` has received the bytes `bs`, which complete the frame that `s` was receiving. -/
structure Delivered (s n : State) (bs : List Byte) : Prop where
  stored : n.bytes .rx s.rxCount bs.length = bs
  kept : ∀ a < s.rxCount, n.byte .rx a = s.byte .rx a
  ready : n.rxState = .ready
  cursor : n.rx.cursor = 4
  tx : n.tx = s.tx
  results : n.results = s.results ++ List.replicate (bs.length - 1) (.ok .pending) ++ [.ok (.complete (n.byte .rx 3))]

/-- The byte that RXBYTE stores in a body, and the bytes it keeps (41_channel.md R100). -/
theorem State.rxStored_byte_of_body (hlow : 3 ≤ s.rxCount) (b : Byte) (a : Nat) :
    (s.rxStored b).byte .rx a = if a = s.rxCount then b else s.byte .rx a := by
  simp [State.rxStored_byte_rx, Nat.le_of_succ_le hlow]

namespace Delivered

/-- The last byte of a frame. -/
theorem last (hlow : 3 ≤ s.rxCount) (b : Byte) :
    Delivered s ((s.rxCompleted b).answer (.ok (.complete ((s.rxCompleted b).byte .rx 3)))) [b] where
  stored := by simp [State.bytes_succ, State.rxStored_byte_of_body hlow]
  kept a ha := by simp [State.rxStored_byte_of_body hlow, Nat.ne_of_lt ha]
  ready := rfl
  cursor := rfl
  tx := rfl
  results := by simp [State.rxCompleted, State.rxStored, State.setByte, State.setCursor]

/-- A byte before the rest of a frame. -/
theorem cons (hlow : 3 ≤ s.rxCount) {b c : Byte} {bs : List Byte}
    (h : Delivered ((s.rxStored b).answer (.ok .pending)) n (c :: bs)) : Delivered s n (b :: c :: bs) where
  stored := by
    have hb : n.byte .rx s.rxCount = b := by
      rw [h.kept _ (Nat.lt_succ_self _), State.answer_byte, State.rxStored_byte_of_body hlow, if_pos rfl]
    exact (State.bytes_succ ..).trans (congrArg₂ List.cons hb h.stored)
  kept a ha := by
    rw [h.kept a (Nat.lt_succ_of_lt ha), State.answer_byte, State.rxStored_byte_of_body hlow, if_neg (Nat.ne_of_lt ha)]
  ready := h.ready
  cursor := h.cursor
  tx := h.tx
  results := by
    rw [h.results]
    simp [State.rxStored, State.setByte, List.replicate_succ]

end Delivered

/-- The last byte of a frame stands at offset length + 2 (41_channel.md R100). -/
theorem State.rxLast_iff (hlow : 3 ≤ s.rxCount) (b : Byte) : s.RxLast b ↔ s.rxCount = (s.byte .rx 2).toNat + 2 := by
  rw [State.RxLast, State.rxStored_byte_of_body hlow, if_neg (by omega), Nat.succ_inj]

/-- The rest of a body, one byte after the other: every byte is stored, and the last one completes the frame. -/
theorem runAll_body {b : Byte} {bs : List Byte} (hs : s.rxState = .body) (hlow : 3 ≤ s.rxCount)
    (hlen : (s.byte .rx 2).toNat ≤ 253) (hend : s.rxCount + bs.length = (s.byte .rx 2).toNat + 2) :
    ∃ n, runAll ((b :: bs).map .rxByte) s = .next n ∧ Delivered s n (b :: bs) := by
  induction bs generalizing s b with
  | nil =>
    exact ⟨_, runAll_cons (exec_rxByte_last hs (by omega) ((State.rxLast_iff hlow b).2 hend)), .last hlow b⟩
  | cons c bs ih =>
    rw [List.length_cons] at hend
    have hmore : ¬ s.RxLast b := by rw [State.rxLast_iff hlow]; omega
    have hkept : ((s.rxStored b).answer (.ok .pending)).byte .rx 2 = s.byte .rx 2 := by
      rw [State.answer_byte, State.rxStored_byte_of_body hlow, if_neg (by omega)]
    obtain ⟨n, hn, hd⟩ := ih (b := c) (s := (s.rxStored b).answer (.ok .pending)) hs (Nat.le_succ_of_le hlow)
      (hkept ▸ hlen) (by rw [hkept, ← hend]; exact Nat.succ_add_eq_add_succ _ _)
    exact ⟨n, (runAll_cons (exec_rxByte_more hs (by omega) hmore)).trans hn, hd.cons hlow⟩

/-! ### The whole frame -/

/-- RXBYTE with the first sentinel byte (41_channel.md R100). -/
theorem exec_rxByte_hunt0 (hs : s.rxState = .hunt0) :
    exec (.rxByte 0x24#8) s = .next ({ s with rxState := .hunt1 }.answer (.ok .pending)) := by
  simp only [exec, execRxByte, hs]
  rfl

/-- RXBYTE with the second sentinel byte (41_channel.md R100). -/
theorem exec_rxByte_hunt1 (hs : s.rxState = .hunt1) :
    exec (.rxByte 0x24#8) s = .next ({ s with rxState := .length }.answer (.ok .pending)) := by
  simp only [exec, execRxByte, hs]
  rfl

/-- RXBYTE with an accepted length (41_channel.md R100). -/
theorem exec_rxByte_length {b : Byte} (hs : s.rxState = .length) (hpos : 1 ≤ b.toNat) (hmax : b.toNat ≤ 253) :
    exec (.rxByte b) s = .next ((s.rxStarted b).answer (.ok .pending)) := by
  have haccepted : ¬ (b = 0#8 ∨ b.toNat > Config.maxLen) := by
    rintro (rfl | h)
    · exact absurd hpos (by decide)
    · exact absurd hmax (Nat.not_le.2 h)
  simp only [exec, execRxByte, hs, State.rxLength, if_neg haccepted]
  rfl

/-- The two sentinel bytes and an accepted length lead from HUNT0 to BODY (41_channel.md R100). -/
theorem runAll_header {b : Byte} (hs : s.rxState = .hunt0) (hpos : 1 ≤ b.toNat) (hmax : b.toNat ≤ 253) :
    ∃ m, runAll ([0x24#8, 0x24#8, b].map .rxByte) s = .next m ∧ m.rxState = .body ∧ m.rxCount = 3 ∧
      m.byte .rx 2 = b ∧ m.tx = s.tx ∧ m.results = s.results ++ List.replicate 3 (.ok .pending) :=
  ⟨_, (runAll_cons (exec_rxByte_hunt0 hs)).trans
      ((runAll_cons (exec_rxByte_hunt1 rfl)).trans (runAll_cons (exec_rxByte_length rfl hpos hmax))),
    rfl, rfl, State.rxStarted_lengthByte _ b, rfl, by simp [State.rxStarted, State.setByte]⟩

/-- A frame delivered to RX in HUNT0: the message stands in RX, complete and unread (41_channel.md R100). -/
theorem runAll_frame (hs : s.rxState = .hunt0) {t : Byte} {body : List Byte} (hfits : body.length ≤ 252) :
    ∃ n, runAll ((messageFrame t body).map .rxByte) s = .next n ∧ HoldsMessage n .rx t body ∧
      n.rxState = .ready ∧ n.rx.cursor = 4 ∧ n.tx = s.tx ∧
      n.results = s.results ++ List.replicate (body.length + 3) (.ok .pending) ++ [.ok (.complete t)] := by
  have hlen : (BitVec.ofNat 8 (body.length + 1)).toNat = body.length + 1 := Nat.mod_eq_of_lt (by omega)
  obtain ⟨m, hm, hbody, hcount, hlength, htx, hresults⟩ := runAll_header hs (b := BitVec.ofNat 8 (body.length + 1))
    (by omega) (by omega)
  obtain ⟨n, hn, hd⟩ := runAll_body (b := t) (bs := body) hbody (by omega) (by rw [hlength]; omega)
    (by rw [hlength]; omega)
  obtain ⟨htype, hfields⟩ : n.byte .rx 3 = t ∧ n.bytes .rx 4 body.length = body := by
    have hstored := hd.stored
    rw [hcount, List.length_cons, State.bytes_succ] at hstored
    exact List.cons.inj hstored
  refine ⟨n, (runAll_append hm).trans hn, ⟨?_, htype, hfields⟩, hd.ready, hd.cursor, hd.tx.trans htx, ?_⟩
  · rw [hd.kept 2 (by omega), hlength]
  · rw [hd.results, hresults, htype, List.append_assoc s.results, List.replicate_append_replicate, Nat.add_comm 3]
    rfl

end Sys2Proof.Machine
end

section
/-! PROOF. Reading a received message field by field (spec/40_codec.md R95). -/

namespace Sys2Proof.Machine

variable {s : State}

theorem leValue_leBytes_one (v : Byte) : BitVec.ofNat 8 (leValue (leBytes 1 v)) = v := by
  rw [leBytes_one, leValue_one]

theorem leValue_leBytes_two (v : Half) : BitVec.ofNat 16 (leValue (leBytes 2 v)) = v :=
  (leValue_two _ _).trans (append_extract_two v)

theorem leValue_leBytes_four (v : Word) : BitVec.ofNat 32 (leValue (leBytes 4 v)) = v :=
  (leValue_four _ _ _ _).trans (append_extract_four v)

/-- Reading a field whose bytes stand at the cursor gives its value and moves only the cursor (40_codec.md R86 to
R92). -/
theorem exec_get {f : Field} (hs : s.rxState = .ready) (hlen : (s.byte .rx 2).toNat ≤ 253)
    (hin : s.rx.cursor + f.size ≤ (s.byte .rx 2).toNat + 3) (hbytes : s.bytes .rx s.rx.cursor f.size = f.bytes) :
    exec f.get s = .next ((s.setCursor .rx (s.rx.cursor + f.size)).answer (.ok f.value)) := by
  cases f with
  | fixedB v =>
    refine (State.fetch_ready _ hs hlen hin).trans ?_
    rw [hbytes, Field.bytes, leValue_leBytes_one]
    rfl
  | fixedH v =>
    refine (State.fetch_ready _ hs hlen hin).trans ?_
    rw [hbytes, Field.bytes, leValue_leBytes_two]
    rfl
  | fixedW v =>
    refine (State.fetch_ready _ hs hlen hin).trans ?_
    rw [hbytes, Field.bytes, leValue_leBytes_four]
    rfl
  | string str =>
    rw [Field.size, Nat.add_comm 1, State.bytes_succ, Field.bytes, stringField_eq] at hbytes
    obtain ⟨hfirst, hbody⟩ := List.cons.inj hbytes
    have hm : (s.byte .rx s.rx.cursor).toNat = min str.length 255 := by
      rw [hfirst]
      exact Nat.mod_eq_of_lt (by omega)
    refine (execGetString_ready hs hlen (by rw [hm]; exact hin)).trans ?_
    rw [hm, hbody]
    rfl

/-- Reading all the fields whose bytes stand between the cursor and the end of the frame. -/
theorem runAll_get {fields : List Field} (hs : s.rxState = .ready) (hlen : (s.byte .rx 2).toNat ≤ 253)
    (hend : s.rx.cursor + (fieldBytes fields).length = (s.byte .rx 2).toNat + 3)
    (hbytes : s.bytes .rx s.rx.cursor (fieldBytes fields).length = fieldBytes fields) :
    ∃ n, runAll (fields.map Field.get) s = .next n ∧
      n.results = s.results ++ fields.map (fun f => .ok f.value) ∧ n.remaining .rx = 0 := by
  induction fields generalizing s with
  | nil =>
    refine ⟨s, rfl, by simp, ?_⟩
    rw [State.remaining_ready hs, ← hend]
    exact Nat.sub_self _
  | cons f fields ih =>
    rw [fieldBytes_cons, List.length_append, Field.bytes_length] at hend
    rw [fieldBytes_cons, List.length_append, State.bytes_add] at hbytes
    obtain ⟨hfield, hfields⟩ := List.append_inj hbytes (by simp)
    rw [Field.bytes_length] at hfield hfields
    have hget := exec_get hs hlen (by omega) hfield
    obtain ⟨n, hn, hres, hrem⟩ := ih (s := (s.setCursor .rx (s.rx.cursor + f.size)).answer (.ok f.value)) hs hlen
      ((Nat.add_assoc ..).trans hend) hfields
    refine ⟨n, (runAll_cons hget).trans hn, ?_, hrem⟩
    simpa [State.setCursor] using hres

/-- Reading the header of a received message, and the length byte of the sent one (40_codec.md R81, R82). -/
theorem runAll_getHeader {t : Byte} {body : List Byte} (hs : s.rxState = .ready) (hrx : HoldsMessage s .rx t body)
    (htx : HoldsMessage s .tx t body) :
    ∃ m, runAll [.getType .rx, .getLength .rx, .getLength .tx] s = .next m ∧ m.rxState = .ready ∧ m.rx = s.rx ∧
      m.results = s.results ++ [.ok (.byte t), .ok (.byte (BitVec.ofNat 8 (body.length + 1))),
        .ok (.byte (BitVec.ofNat 8 (body.length + 1)))] := by
  obtain ⟨-, -, hgetType⟩ := getTypeReturnsTypeByte
  obtain ⟨-, hget, -⟩ := hgetType s
  have hlen := getLengthReturnsLengthByte
  exact ⟨_, (runAll_cons (hget hs)).trans ((runAll_cons (hlen _ .rx)).trans (runAll_cons (hlen _ .tx))), hs, rfl,
    by simp [hrx.typeByte, hrx.lengthByte, htx.lengthByte]⟩

/-- Settles O55: TX holds the message whose frame is sent, RX holds it once the frame has been delivered, and reading it
field by field gives back what was added. -/
theorem messageRoundTrip : Obligations.MessageRoundTrip := by
  intro s t fields hs hfits
  rw [← fieldBytes_length] at hfits
  obtain ⟨built, hbuilt, heffects, hhunt, htx⟩ := build_and_send s t hfits
  obtain ⟨received, hreceived, hrx, hready, hcursor, hkept, hresults⟩ :=
    runAll_frame (hhunt.trans hs) (t := t) hfits
  obtain ⟨asked, hasked, hready', hrx', hheader⟩ := runAll_getHeader hready hrx (htx.congr hkept)
  have hmessage : HoldsMessage asked .rx t (fieldBytes fields) := hrx.congr hrx'
  have hlen := hmessage.lengthByte_toNat hfits
  have hstart : asked.rx.cursor = 4 := hrx' ▸ hcursor
  obtain ⟨done, hdone, hvalues, hrest⟩ := runAll_get hready' (by omega) (by omega) (hstart ▸ hmessage.body)
  exact ⟨built, messageFrame t (fieldBytes fields), received, _, done, hbuilt, heffects, hreceived, hready, hresults,
    (runAll_append hasked).trans hdone, by rw [hvalues, hheader], hrest⟩

end Sys2Proof.Machine
end

section
/-! PROOF. The senders (spec/41_channel.md R97 to R99; spec/60_exceptions.md R124). -/

namespace Sys2Proof.Machine

/-- Each of the three senders is `SendString` with a type constant of its own (41_channel.md R97 to R99). -/
theorem exec_sender {s : State} {t : Byte} {str : List Byte} {i : Instr}
    (h : (i = .sendFw str ∧ t = s.params.typeFwVersion) ∨ (i = .sendPv str ∧ t = s.params.typeProgVersion) ∨
      (i = .sendLog str ∧ t = s.params.typeLog)) :
    exec i s = .next (s.sendString t str) := by
  obtain ⟨rfl, rfl⟩ | ⟨rfl, rfl⟩ | ⟨rfl, rfl⟩ := h <;> rfl

/-! ### The message before its string -/

theorem State.senderHeader_typeByte (s : State) (t : Byte) : (s.senderHeader t).byte .tx 3 = t :=
  (s.rewind .tx).setType_typeByte t

theorem State.senderHeader_byte_of_le (s : State) (t : Byte) {a : Nat} (ha : 4 ≤ a) :
    (s.senderHeader t).byte .tx a = s.byte .tx a :=
  ((s.rewind .tx).byte_setType_of_ne t (by omega)).trans (s.byte_rewind_of_ne .tx (by omega))

/-- A sender begins a message without fields (41_channel.md R97). -/
theorem Building.senderHeader (s : State) (t : Byte) : Building s (s.senderHeader t) t [] where
  message := ⟨((s.rewind .tx).byte_setType_of_ne t (by omega)).trans (s.rewind_lengthByte .tx),
    s.senderHeader_typeByte t, rfl⟩
  cursor := s.senderHeader_cursor t
  rest := rfl

/-! ### The message with its string -/

/-- The TX message of a sender whose string fits: the one field is the string with its length byte (41_channel.md
R97). -/
def State.senderMessage (s : State) (t : Byte) (str : List Byte) : State :=
  (s.senderHeader t).append (BitVec.ofNat 8 str.length :: str)

theorem State.senderMessage_appended (s : State) (t : Byte) (str : List Byte) :
    Appended (s.senderHeader t) ((s.senderMessage t str).answer (.ok .unit)) (BitVec.ofNat 8 str.length :: str) :=
  State.append_spec (Nat.le_of_eq (s.senderHeader_cursor t).symm)

theorem State.senderMessage_holds (s : State) (t : Byte) (str : List Byte) :
    HoldsMessage (s.senderMessage t str) .tx t (BitVec.ofNat 8 str.length :: str) :=
  ((Building.senderHeader s t).append (s.senderMessage_appended t str)).message.congr rfl

theorem State.senderMessage_byte_of_le (s : State) (t : Byte) (str : List Byte) {a : Nat} (ha : 5 + str.length ≤ a) :
    (s.senderMessage t str).byte .tx a = s.byte .tx a := by
  have hpast : 4 + (BitVec.ofNat 8 str.length :: str).length ≤ a := by rw [List.length_cons]; omega
  have hkept := (s.senderMessage_appended t str).otherBytes a (by omega) (.inr (by rwa [s.senderHeader_cursor]))
  exact hkept.trans (s.senderHeader_byte_of_le t (by omega))

/-! ### What a sender does -/

/-- A sender whose string fits hands over the frame of its message (41_channel.md R97). -/
theorem State.sendString_sends (s : State) (t : Byte) {str : List Byte} (hlen : str.length ≤ 251) :
    s.sendString t str = (((s.senderMessage t str).rewind .tx).emit
      (.transportWrite (messageFrame t (BitVec.ofNat 8 str.length :: str)))).answer (.ok .unit) := by
  obtain ⟨hlong, -⟩ | ⟨-, hsent⟩ := s.sendString_cases t str
  · omega
  · rw [hsent, State.rewind_emit, ← (s.senderMessage_holds t str).frame, List.length_cons,
      show str.length + 1 + 4 = 5 + str.length by omega]
    rfl

/-- A sender whose string does not fit sends nothing (41_channel.md R97, 60_exceptions.md R124). -/
theorem State.sendString_refuses (s : State) (t : Byte) {str : List Byte} (hlen : 252 ≤ str.length) :
    s.sendString t str = ((s.senderHeader t).rewind .tx).answer (.err .bufferOverflow) := by
  obtain ⟨-, hrefused⟩ | ⟨hshort, -⟩ := s.sendString_cases t str
  · exact hrefused
  · omega

/-- Building the message and the final reset replace the TX codec and touch nothing else (41_channel.md R97). -/
theorem State.senderMessage_rewind_eq (s : State) (t : Byte) (str : List Byte) :
    ∃ c, (s.senderMessage t str).rewind .tx = s.setCodec .tx c :=
  ⟨_, by simp only [State.senderMessage, State.senderHeader, State.rewind_eq, State.append_eq, State.setByte,
    State.setCodec_setCodec]; rfl⟩

/-- Settles O28: the final reset takes back only the cursor and the length byte of the message that was sent. -/
theorem sendersSendOneFrame : Obligations.SendersSendOneFrame := by
  intro s str hlen i t hi
  have hmessage := s.senderMessage_holds t str
  obtain ⟨hprefix, hstring⟩ := List.cons.inj ((State.bytes_succ ..).symm.trans hmessage.body)
  have hcursor := (s.senderMessage t str).rewind_cursor .tx
  have hlength := (s.senderMessage t str).rewind_lengthByte .tx
  have hkept {a : Nat} (ha : 3 ≤ a) := (s.senderMessage t str).byte_rewind_of_ne .tx (show a ≠ 2 by omega)
  have hsends := (exec_sender hi).trans (congrArg _ (s.sendString_sends t hlen))
  obtain ⟨c, hc⟩ := s.senderMessage_rewind_eq t str
  rw [hc] at hsends hcursor hlength
  simp only [hc] at hkept
  exact ⟨_, hsends, rfl, hcursor, hlength, (hkept (by omega)).trans hmessage.typeByte,
    (hkept (by omega)).trans hprefix, (State.bytes_congr fun a ha _ => hkept (by omega)).trans hstring,
    fun a ha => (hkept (by omega)).trans (s.senderMessage_byte_of_le t str ha), rfl⟩

/-- Settles O29: the reset after the refused string keeps the type byte. -/
theorem senderOverflowSendsNothing : Obligations.SenderOverflowSendsNothing := by
  intro s str hlen i t hi
  have hkept {a : Nat} (ha : 3 ≤ a) := (s.senderHeader t).byte_rewind_of_ne .tx (show a ≠ 2 by omega)
  exact ⟨_, (exec_sender hi).trans (congrArg _ (s.sendString_refuses t hlen)), State.rewind_cursor _ .tx,
    State.rewind_lengthByte _ .tx, (hkept (by omega)).trans (s.senderHeader_typeByte t),
    fun a ha => (hkept (by omega)).trans (s.senderHeader_byte_of_le t ha), rfl⟩

end Sys2Proof.Machine
end

section
/-! PROOF. RXBYTE in each state of inbound reassembly (spec/41_channel.md R100). -/

namespace Sys2Proof.Machine

/-- Settles O30: the hunt moves on with a sentinel byte only, and an unread frame is kept. -/
theorem rxByteHuntsAndRefuses : Obligations.RxByteHuntsAndRefuses := by
  intro s b
  refine ⟨fun hs => ?_, fun hs => ?_, fun hs => ?_⟩ <;> simp only [exec, execRxByte, hs]
  · split
    · rfl
    · rw [← hs] -- HUNT0 stands already
      rfl
  · rfl
  · rfl

/-- RXBYTE in LENGTH with a length that no frame has (41_channel.md R100). -/
theorem exec_rxByte_malformed {s : State} {b : Byte} (hs : s.rxState = .length) (hbad : b = 0#8 ∨ 253 < b.toNat) :
    exec (.rxByte b) s = .next ({ s with rxState := .hunt0 }.answer (.err .malformedFrame)) := by
  simp only [exec, execRxByte, hs]
  exact congrArg Host.Outcome.next (if_pos hbad)

/-- Settles O31: a length is refused or starts the body. -/
theorem rxByteTakesLength : Obligations.RxByteTakesLength := fun s b hs =>
  ⟨exec_rxByte_malformed hs, fun hpos hmax => ⟨_, exec_rxByte_length hs hpos hmax, s.rxStarted_lengthByte b,
    fun a ha => (Codec.byte_setByte s.rx .rx 2 a b).trans (if_neg (by tauto)), rfl⟩⟩

/-- Settles O32: the byte is stored, and the case split is on whether it is the last one of the frame. -/
theorem rxByteStoresBody : Obligations.RxByteStoresBody := by
  intro s b hs hlow hhigh
  have hstored : (s.rxStored b).byte .rx s.rxCount = b := by rw [State.rxStored_byte_of_body hlow, if_pos rfl]
  have hkept {a : Nat} (ha : a ≠ s.rxCount) : (s.rxStored b).byte .rx a = s.byte .rx a := by
    rw [State.rxStored_byte_of_body hlow, if_neg ha]
  have hend : s.RxLast b ↔ s.rxCount + 1 = (s.byte .rx 2).toNat + 3 := by rw [State.rxLast_iff hlow]; omega
  by_cases hlast : s.RxLast b
  · exact ⟨_, exec_rxByte_last hs (by omega) hlast, hstored, fun _ => hkept, rfl, fun _ => ⟨rfl, rfl, rfl⟩,
      fun hmore => absurd (hend.1 hlast) hmore, rfl⟩
  · exact ⟨_, exec_rxByte_more hs (by omega) hlast, hstored, fun _ => hkept, rfl, fun h => absurd (hend.2 h) hlast,
      fun _ => ⟨hs, Codec.setByte_cursor s.rx s.rxCount b, rfl⟩, rfl⟩

end Sys2Proof.Machine
end

section
/-! PROOF. The commands of the binding table: INIT, BIND, CLEAR and RBIND (spec/42_binding_table.md R104 to R111). -/

namespace Sys2Proof.Machine

/-! ### Operands (R104) -/

theorem slotOperand_of_le {slot : Byte} (h : slot.toNat ≤ 15) : ∃ i, slotOperand slot = some i :=
  ⟨_, dif_pos (Nat.lt_succ_of_le h)⟩

theorem slotOperand_of_gt {slot : Byte} (h : 15 < slot.toNat) : slotOperand slot = none :=
  dif_neg (Nat.not_lt.2 h)

theorem pinOperand_of_gt {pin : Half} (h : 126 < pin.toNat) : pinOperand pin = none :=
  dif_neg (Nat.not_le.2 h)

/-- The operand of a reversed value is valid, and BIND reads the value back from it. -/
theorem revOperand_valid (rev : Bool) :
    (if rev then 1#8 else 0#8).toNat ≤ 1 ∧ ((if rev then 1#8 else 0#8) == 1#8) = rev := by
  cases rev <;> decide

/-! ### BIND and RBIND in each case of their operands (R107, R109) -/

/-- BIND with valid operands binds the slot. -/
theorem exec_bind_valid {slot rev : Byte} {pin : Half} {i : Fin 16} {p : Fin 127} (s : State)
    (hslot : slotOperand slot = some i) (hpin : pinOperand pin = some p) (hrev : rev.toNat ≤ 1) :
    exec (.bind slot pin rev) s = .next (s.bindSlot i p (rev == 1#8)) := by
  simp only [exec, execBind, if_neg (Nat.not_lt.2 hrev), hslot, hpin]

/-- BIND with the operands that stand for a pin and a reversed value. -/
theorem exec_bind_encoded {slot : Byte} {i : Fin 16} (s : State) (hslot : slotOperand slot = some i) (pin : Fin 127)
    (rev : Bool) :
    exec (.bind slot (BitVec.ofNat 16 pin.val) (if rev then 1 else 0)) s = .next (s.bindSlot i pin rev) := by
  obtain ⟨hvalid, hread⟩ := revOperand_valid rev
  have h := exec_bind_valid s hslot (pinOperand_ofNat pin) hvalid
  rwa [hread] at h

/-- RBIND with a valid slot and a pin code other than 0 binds the slot to the unpacked pair. -/
theorem exec_rbind_valid {slot packed : Byte} {i : Fin 16} {p : Fin 127} {rev : Bool} (s : State)
    (hslot : slotOperand slot = some i) (hpacked : unpackSlot s.params.layout packed = ⟨some p, rev⟩) :
    exec (.rbind slot packed) s = .next (s.bindSlot i p rev) := by
  simp only [exec, execRbind, hslot, hpacked]

/-- A BIND or RBIND that names a slot and a value binds the one to the other. -/
theorem exec_of_bindTarget {s : State} {i : Instr} {target : Fin 16 × Slot}
    (h : bindTarget s.params.layout i = some target) :
    ∃ pin rev, target.2 = ⟨some pin, rev⟩ ∧ exec i s = .next (s.bindSlot target.1 pin rev) := by
  cases i with
  | bind slot pin rev =>
    simp only [bindTarget] at h
    split at h
    next i p hslot hpin =>
      obtain ⟨hrev, htarget⟩ := Option.ite_none_right_eq_some.1 h
      cases htarget
      exact ⟨p, _, rfl, exec_bind_valid s hslot hpin hrev⟩
    next => cases h
  | rbind slot packed =>
    simp only [bindTarget] at h
    split at h
    next i p hslot hpin =>
      cases h
      exact ⟨p, _, rfl, exec_rbind_valid s hslot (by rw [← hpin])⟩
    next => cases h
  | _ => cases h

/-- Settles O37: BIND checks its operands one after the other. -/
theorem bindRejectsBadOperands : Obligations.BindRejectsBadOperands := by
  intro s slot pin rev
  refine ⟨fun hrev => ?_, fun hrev hslot => ?_, fun hrev hslot hpin => ?_⟩
  · exact congrArg Host.Outcome.next (if_pos hrev)
  · simp only [exec, execBind, if_neg (Nat.not_lt.2 hrev), slotOperand_of_gt hslot, State.raise_eq]
  · obtain ⟨i, hi⟩ := slotOperand_of_le hslot
    simp only [exec, execBind, if_neg (Nat.not_lt.2 hrev), hi, pinOperand_of_gt hpin, State.raise_eq]

/-- Settles O39: both commands end in the same binding of the slot. -/
theorem rbindActsAsBind : Obligations.RbindActsAsBind := by
  intro s slot packed
  refine ⟨rfl, fun hslot => ?_, fun hslot hpin => ?_, fun pin rev hslot hpacked => ?_⟩
  · simp only [exec, execRbind, slotOperand_of_gt hslot, State.raise_eq]
  · obtain ⟨i, hi⟩ := slotOperand_of_le hslot
    obtain ⟨rev, hpacked⟩ : ∃ rev, unpackSlot s.params.layout packed = ⟨none, rev⟩ := ⟨_, by rw [← hpin]⟩
    simp only [exec, execRbind, hi, hpacked, State.raise_eq]
  · obtain ⟨i, hi⟩ := slotOperand_of_le hslot
    exact ⟨_, exec_rbind_valid s hi hpacked, exec_bind_encoded s hi pin rev⟩

/-! ### After the storage write (R105, R107, R108) -/

/-- What a command reports that ends with a storage write. -/
def writeResult : WriteAnswer → Result
  | .ok => .ok .unit
  | .fail _ => .err .persistenceFailure

/-- The calls that BIND makes after its storage write. -/
def configureAfter (pin : Fin 127) : WriteAnswer → List Effect
  | .ok => [.configureInput pin]
  | .fail _ => []

/-- The region after a storage write, for each of its answers. -/
theorem storeHolds_writtenBytes {s n : State} {image : List Byte} {w : WriteAnswer} (hlen : image.length = 16)
    (hstore : n.store = s.store.writeBytes s.params.tableBase (writtenBytes image w)) :
    (w = .ok → StoreHolds s n image) ∧ ∀ left, w = .fail left → StoreHolds s n left.toList := by
  have stored := storeHolds_writeBytes (writtenBytes_length hlen w) hstore
  constructor
  · rintro rfl
    exact stored
  · rintro left rfl
    exact stored

/-- The state of a table command that has set the slots, persisted them, and made some more calls. -/
def State.persisted (s : State) (slots : Vector Slot 16) (calls : List Effect) : State :=
  { s with
    slots := slots
    store := s.store.writeBytes s.params.tableBase
      (writtenBytes (tableImage s.params.layout slots) s.env.nextStorageWrite.1)
    env := s.env.nextStorageWrite.2
    effects := s.effects ++ .storageWrite s.params.tableBase (tableImage s.params.layout slots) :: calls }

theorem State.persist_eq_persisted (s : State) (slots : Vector Slot 16) :
    { s with slots := slots }.persist.2 = s.persisted slots [] :=
  (State.persist_spec _).2

theorem State.storeHolds_persisted (s : State) (slots : Vector Slot 16) (calls : List Effect) (r : Result) :
    (s.env.nextStorageWrite.1 = .ok →
      StoreHolds s ((s.persisted slots calls).answer r) (tableImage s.params.layout slots)) ∧
    ∀ left, s.env.nextStorageWrite.1 = .fail left →
      StoreHolds s ((s.persisted slots calls).answer r) left.toList :=
  storeHolds_writtenBytes (tableImage_length _ _) rfl

/-! ### BIND -/

theorem State.bindSlot_of_eq {s : State} {i : Fin 16} {pin : Fin 127} {rev : Bool}
    (h : s.slots[i] = ⟨some pin, rev⟩) : s.bindSlot i pin rev = s.answer (.ok .unit) :=
  if_pos h

/-- Binding a slot to another value than it holds. -/
theorem State.bindSlot_of_ne {s : State} {i : Fin 16} {pin : Fin 127} {rev : Bool}
    (h : s.slots[i] ≠ ⟨some pin, rev⟩) :
    s.bindSlot i pin rev =
      (s.persisted (s.slots.set i ⟨some pin, rev⟩) (configureAfter pin s.env.nextStorageWrite.1)).answer
        (writeResult s.env.nextStorageWrite.1) := by
  obtain ⟨hheld, -⟩ | ⟨-, hw, hbind⟩ | ⟨-, hw, hbind⟩ := s.bindSlot_cases i pin rev
  · exact absurd hheld h
  · rw [hbind, State.persist_eq_persisted, hw]
    simp only [State.persisted, State.emit, configureAfter, writeResult, List.append_assoc, List.singleton_append]
  · cases hfail : s.env.nextStorageWrite.1 with
    | ok => exact absurd hfail hw
    | fail left => exact hbind.trans (by rw [State.persist_eq_persisted]; rfl)

/-- Settles O36: the write is suppressed. -/
theorem bindOfHeldValueIsNoOp : Obligations.BindOfHeldValueIsNoOp := by
  intro s slot pin rev hheld
  rw [exec_bind_encoded s (slotOperand_ofNat slot), State.bindSlot_of_eq hheld]

/-- Settles O35: the storage write decides the result and whether the pin is configured. -/
theorem bindUpdatesPersistsConfigures : Obligations.BindUpdatesPersistsConfigures := by
  intro s slot pin rev hne
  obtain ⟨image, failed⟩ := s.storeHolds_persisted (s.slots.set slot ⟨some pin, rev⟩)
    (configureAfter pin s.env.nextStorageWrite.1) (writeResult s.env.nextStorageWrite.1)
  refine ⟨_, (exec_bind_encoded s (slotOperand_ofNat slot) pin rev).trans (congrArg _ (State.bindSlot_of_ne hne)),
    fun hok => ⟨image hok, ?_, ?_⟩, fun left hfail => ⟨failed left hfail, ?_, ?_⟩, rfl⟩
  · rw [hok]; rfl
  · rw [hok]; rfl
  · rw [hfail]; rfl
  · rw [hfail]; rfl

/-! ### Two successful BIND or RBIND commands (R110) -/

/-- A binding that succeeds leaves the slot with the value, keeps the layout, and writes storage unless the slot held
the value before. -/
theorem State.bindSlot_succeeds {s : State} {i : Fin 16} {pin : Fin 127} {rev : Bool}
    (hok : (s.bindSlot i pin rev).results = s.results ++ [.ok .unit]) :
    (s.bindSlot i pin rev).slots[i] = ⟨some pin, rev⟩ ∧
    (s.bindSlot i pin rev).storageWrites = s.storageWrites + if s.slots[i] = ⟨some pin, rev⟩ then 0 else 1 := by
  by_cases hheld : s.slots[i] = ⟨some pin, rev⟩
  · rw [State.bindSlot_of_eq hheld, if_pos hheld]
    exact ⟨hheld, rfl⟩
  · rw [State.bindSlot_of_ne hheld] at hok ⊢
    rw [if_neg hheld]
    refine ⟨by simp [State.persisted], ?_⟩
    cases hw : s.env.nextStorageWrite.1 with
    | ok => simp [State.storageWrites, State.persisted, hw, configureAfter]
    | fail left => simp [State.persisted, hw, writeResult] at hok

theorem State.bindSlot_params (s : State) (i : Fin 16) (pin : Fin 127) (rev : Bool) :
    (s.bindSlot i pin rev).params = s.params := by
  by_cases hheld : s.slots[i] = ⟨some pin, rev⟩
  · rw [State.bindSlot_of_eq hheld]; rfl
  · rw [State.bindSlot_of_ne hheld]; rfl

/-- Settles O40: after the first command the slot holds the value that the second one names. -/
theorem secondBindWritesNothing : Obligations.SecondBindWritesNothing := by
  intro s n m i j target hi hj hn hok hm
  obtain ⟨pin, rev, htarget, hbind⟩ := exec_of_bindTarget hi
  obtain rfl : s.bindSlot target.1 pin rev = n := Host.Outcome.next.inj (hbind.symm.trans hn)
  obtain ⟨hheld, hwrites⟩ := State.bindSlot_succeeds hok
  rw [← State.bindSlot_params s target.1 pin rev] at hj
  obtain ⟨pin', rev', htarget', hagain⟩ := exec_of_bindTarget hj
  rw [State.bindSlot_of_eq (hheld.trans (htarget.symm.trans htarget'))] at hagain
  obtain rfl := Host.Outcome.next.inj (hagain.symm.trans hm)
  exact ⟨rfl, by rw [htarget]; exact hwrites⟩

/-! ### CLEAR -/

/-- The image of a clear table, under either layout (30_encoding.md R57 to R59). -/
@[simp] theorem tableImage_unbound (layout : BindingByteLayout) :
    tableImage layout (Vector.replicate 16 Slot.unbound) = List.replicate 16 0#8 := by
  cases layout <;> decide

theorem exec_clear (s : State) :
    exec .clear s = .next ((s.persisted (Vector.replicate 16 Slot.unbound) []).answer
      (writeResult s.env.nextStorageWrite.1)) := by
  have hsuccess := (State.persist_spec { s with slots := Vector.replicate 16 Slot.unbound }).1
  simp only [exec, execClear, hsuccess, State.persist_eq_persisted]
  cases s.env.nextStorageWrite.1 <;> rfl

/-- Settles O38: CLEAR does not look at the table before it. -/
theorem clearUnbindsAndPersists : Obligations.ClearUnbindsAndPersists := by
  refine ⟨rfl, fun s => ?_⟩
  obtain ⟨image, failed⟩ := s.storeHolds_persisted (Vector.replicate 16 Slot.unbound) []
    (writeResult s.env.nextStorageWrite.1)
  rw [tableImage_unbound] at image
  refine ⟨_, exec_clear s, fun i => Vector.getElem_replicate i.isLt, ?_, fun hok => ⟨image hok, ?_⟩,
    fun left hfail => ⟨failed left hfail, ?_⟩, rfl⟩
  · simp [State.persisted]
  · rw [hok]; rfl
  · rw [hfail]; rfl

/-- Settles O41: the second CLEAR writes too, because CLEAR suppresses no write. -/
theorem clearTwiceWritesTwice : Obligations.ClearTwiceWritesTwice := fun s =>
  ⟨_, _, exec_clear s, exec_clear _, rfl, by simp [State.persisted]⟩

/-! ### INIT (R106) -/

/-- The state in which INIT has the answer to its storage read. -/
def State.tableRead (s : State) : State :=
  { s with env := s.env.nextStorageRead.2, effects := s.effects ++ [.storageRead s.params.tableBase 16] }

theorem exec_init (s : State) :
    exec .init s = .next (if s.env.nextStorageRead.1 then s.tableRead.loadTable
      else s.tableRead.answer (.err .persistenceFailure)) := rfl

/-- Settles O34: the read's answer decides whether the table is loaded. -/
theorem initLoadsTable : Obligations.InitLoadsTable := by
  refine ⟨rfl, fun s => ⟨fun hfail => ?_, fun hok => ?_⟩⟩
  · rw [exec_init, hfail]
    rfl
  · obtain ⟨slots, hslots, hload⟩ := s.tableRead.loadTable_spec
    rw [exec_init, if_pos hok, hload]
    exact ⟨_, rfl, hslots, List.append_assoc .., rfl⟩

end Sys2Proof.Machine
end

section
/-! PROOF. The commands of the sampler: BUILD, XMIT and TICK (spec/43_sampler.md R113 to R116), and the cadence of
TICKs 5 ms apart (R118). -/

namespace Sys2Proof.Machine

/-! ### BUILD (R114) -/

theorem exec_build (s : State) : exec .build s = .next (s.buildPacket.2.answer (.ok (.packet s.buildPacket.1))) := rfl

theorem State.length_bound_pins (s : State) : (s.slots.toList.filterMap (·.pin)).length = boundBelow s.slots 16 := by
  rw [boundBelow, List.take_of_length_le (by simp)]

/-- The packet's bit of a slot. -/
theorem State.buildPacket_bit (s : State) (i : Fin 16) :
    s.buildPacket.1.getLsbD i.val =
      (s.slots[i].pin.isSome && (s.env.pinAnswer (boundBelow s.slots i.val) ^^ s.slots[i].reversed)) := by
  rw [State.buildPacket, State.sampleFrom_bits _ _ _ _ (by simp), dif_pos (by simp)]
  simp [boundBelow]

/-- The packet's bits above those of the slots. -/
theorem State.buildPacket_bit_of_le (s : State) {k : Nat} (hk : 16 ≤ k) : s.buildPacket.1.getLsbD k = false := by
  rw [State.buildPacket, State.sampleFrom_bits _ _ _ _ (by simp), dif_neg (by simpa using hk)]

/-- Settles O43: sampling starts at slot 0 with the answer number 0, so slot i takes the answer whose number is that
of the bound slots below it. -/
theorem buildPacksSamples : Obligations.BuildPacksSamples := by
  refine ⟨rfl, fun s => ⟨_, _, exec_build s, fun i => ?_, fun k => s.buildPacket_bit_of_le, ?_⟩⟩
  · rw [s.buildPacket_bit i]
    cases s.slots[i].pin with
    | none => exact Bool.false_and _
    | some pin => exact Bool.true_and _
  · rw [s.buildPacket_state, s.length_bound_pins]
    rfl

/-! ### XMIT (R115) -/

theorem exec_xmit (s : State) (p : Packet) : exec (.xmit p) s = .next (s.transmit p .unit) := rfl

/-- Settles O44: the eight bytes of the operand are those of the call. -/
theorem xmitSendsEightBytes : Obligations.XmitSendsEightBytes := fun s p =>
  ⟨rfl, (exec_xmit s p).trans (congrArg _ (s.transmit_spec p .unit))⟩

/-! ### TICK (R116) -/

/-- A TICK that is due, before it builds the packet. -/
def State.marked (s : State) (now : Word) : State := { s with lastSentMs := now }

/-- The state after TICK. -/
def State.ticked (s : State) (now : Word) : State :=
  if sendDue now s.lastSentMs then (s.marked now).buildPacket.2.transmit (s.marked now).buildPacket.1 .sent
  else s.answer (.ok .notSent)

theorem exec_tick (s : State) (now : Word) : exec (.tick now) s = .next (s.ticked now) := rfl

theorem State.ticked_of_due {s : State} {now : Word} (h : 20 ≤ (now - s.lastSentMs).toNat) :
    s.ticked now = (s.marked now).buildPacket.2.transmit (s.marked now).buildPacket.1 .sent :=
  if_pos ((sendDue_iff _ _).2 h)

theorem State.ticked_of_not_due {s : State} {now : Word} (h : ¬ 20 ≤ (now - s.lastSentMs).toNat) :
    s.ticked now = s.answer (.ok .notSent) :=
  if_neg (mt (sendDue_iff _ _).1 h)

@[simp] theorem State.buildPacket_results (s : State) : s.buildPacket.2.results = s.results := by
  rw [s.buildPacket_state]

@[simp] theorem State.buildPacket_lastSentMs (s : State) : s.buildPacket.2.lastSentMs = s.lastSentMs := by
  rw [s.buildPacket_state]

@[simp] theorem State.transmit_lastSentMs (s : State) (p : Packet) (v : Value) :
    (s.transmit p v).lastSentMs = s.lastSentMs := by
  rw [s.transmit_spec]
  split <;> rfl

/-- A transmission reports `v` on success only, and does the same whatever it is to report. -/
theorem State.transmit_cases (s : State) (p : Packet) (v w : Value) :
    ((s.transmit p v).results = s.results ++ [.ok v] ∧
      s.transmit p w = { s.transmit p v with results := s.results ++ [.ok w] }) ∨
    ((s.transmit p v).results = s.results ++ [.err .transmitFailure] ∧ s.transmit p w = s.transmit p v) := by
  rw [s.transmit_spec p v, s.transmit_spec p w]
  split
  · exact .inl ⟨rfl, rfl⟩
  · exact .inr ⟨rfl, rfl⟩

/-- Settles O45: a TICK that is due is a BUILD and an XMIT with the new LastSentMs, and reports Sent where XMIT
reports the unit value. -/
theorem tickFollowsPeriod : Obligations.TickFollowsPeriod := by
  intro s now
  refine ⟨rfl, fun hearly => ?_, fun hdue => ?_⟩
  · rw [exec_tick, State.ticked_of_not_due (Nat.not_le.2 hearly)]
  · have hlast : ((s.marked now).buildPacket.2.transmit (s.marked now).buildPacket.1 .unit).lastSentMs = now := by
      simp [State.marked]
    have hsent := State.transmit_cases (s.marked now).buildPacket.2 (s.marked now).buildPacket.1 .unit .sent
    rw [State.buildPacket_results] at hsent
    rw [exec_tick, State.ticked_of_due hdue]
    exact ⟨_, _, _, exec_build _, State.buildPacket_results _, exec_xmit _ _, hlast,
      hsent.imp (And.imp_right (congrArg _)) (And.imp_right (congrArg _))⟩

/-! ### Packets sent -/

/-- Reading pins hands nothing to the bus. -/
@[simp] theorem State.buildPacket_packetsSent (s : State) : s.buildPacket.2.packetsSent = s.packetsSent := by
  rw [s.buildPacket_state]
  simp [State.packetsSent, List.countP_map, Function.comp_def]

/-- A transmission is one packet, whether or not it succeeds. -/
@[simp] theorem State.transmit_packetsSent (s : State) (p : Packet) (v : Value) :
    (s.transmit p v).packetsSent = s.packetsSent + 1 := by
  rw [s.transmit_spec]
  split <;> simp [State.packetsSent]

/-- TICK sends one packet when it is due, and none before. -/
theorem State.ticked_packetsSent (s : State) (now : Word) :
    (s.ticked now).packetsSent = s.packetsSent + if 20 ≤ (now - s.lastSentMs).toNat then 1 else 0 := by
  split
  next hdue => rw [State.ticked_of_due hdue, State.transmit_packetsSent, State.buildPacket_packetsSent]; rfl
  next hearly => rw [State.ticked_of_not_due hearly]; rfl

theorem State.ticked_lastSentMs (s : State) (now : Word) :
    (s.ticked now).lastSentMs = if 20 ≤ (now - s.lastSentMs).toNat then now else s.lastSentMs := by
  split
  next hdue => rw [State.ticked_of_due hdue, State.transmit_lastSentMs, State.buildPacket_lastSentMs]; rfl
  next hearly => rw [State.ticked_of_not_due hearly]; rfl

/-! ### Sequences of TICKs -/

/-- The state after the first `k` TICKs at the times `now`. -/
def State.afterTicks (s : State) (now : Nat → Word) : Nat → State
  | 0 => s
  | k + 1 => (s.afterTicks now k).ticked (now k)

theorem runAll_ticks (s : State) (now : Nat → Word) (k : Nat) :
    runAll ((List.range k).map fun j => .tick (now j)) s = .next (s.afterTicks now k) := by
  induction k with
  | zero => rfl
  | succ k ih =>
    rw [List.range_succ, List.map_append, runAll_append ih]
    rfl

/-- TICK number `k` is due. -/
def State.TickDue (s : State) (now : Nat → Word) (k : Nat) : Prop :=
  20 ≤ (now k - (s.afterTicks now k).lastSentMs).toNat

theorem State.afterTicks_succ_of_due {s : State} {now : Nat → Word} {k : Nat} (h : s.TickDue now k) :
    (s.afterTicks now (k + 1)).lastSentMs = now k :=
  (State.ticked_lastSentMs _ _).trans (if_pos h)

theorem State.afterTicks_succ_of_not_due {s : State} {now : Nat → Word} {k : Nat} (h : ¬ s.TickDue now k) :
    (s.afterTicks now (k + 1)).lastSentMs = (s.afterTicks now k).lastSentMs :=
  (State.ticked_lastSentMs _ _).trans (if_neg h)

/-- The TICKs that send a packet are those that are due. -/
theorem State.sends_iff_tickDue (s : State) (now : Nat → Word) (k : Nat) :
    (∃ before after, runAll ((List.range k).map fun j => .tick (now j)) s = .next before ∧
      exec (.tick (now k)) before = .next after ∧ after.packetsSent = before.packetsSent + 1) ↔ s.TickDue now k := by
  simp [runAll_ticks, exec_tick, State.ticked_packetsSent, State.TickDue]

/-! ### The cadence (R118) -/

/-- The `k`-th of TICKs 5 ms apart, from `a` on. -/
def cadenceTime (a : Word) (k : Nat) : Word := a + BitVec.ofNat 32 (5 * k)

/-- The time between two of them, across the wrap of the clock. -/
theorem cadenceTime_sub (a : Word) (k d : Nat) :
    cadenceTime a (k + d) - cadenceTime a k = BitVec.ofNat 32 (5 * d) := by
  simp only [cadenceTime, Nat.mul_add, BitVec.ofNat_add]
  abel

section
variable {s : State} {a : Word} {k : Nat}

/-- The `d`-th TICK after the one that set LastSentMs, up to the fourth, is due only if it is the fourth. -/
theorem State.tickDue_iff_of_lastSentMs {d : Nat} (hd : d ≤ 4)
    (hlast : (s.afterTicks (cadenceTime a) (k + d)).lastSentMs = cadenceTime a k) :
    s.TickDue (cadenceTime a) (k + d) ↔ d = 4 := by
  rw [State.TickDue, hlast, cadenceTime_sub, BitVec.toNat_ofNat, Nat.mod_eq_of_lt (by omega)]
  omega

/-- LastSentMs stays as a send set it until the fourth TICK after it. -/
theorem State.lastSentMs_after_due (hdue : s.TickDue (cadenceTime a) k) {d : Nat} (hd : d < 4) :
    (s.afterTicks (cadenceTime a) (k + (d + 1))).lastSentMs = cadenceTime a k := by
  induction d with
  | zero => exact State.afterTicks_succ_of_due hdue
  | succ d ih =>
    have hlast := ih (by omega)
    have hearly := mt (State.tickDue_iff_of_lastSentMs hd.le hlast).1 (by omega)
    exact (State.afterTicks_succ_of_not_due hearly).trans hlast

/-- Of the four TICKs after a send exactly the last one is due. -/
theorem State.tickDue_after_due_iff (hdue : s.TickDue (cadenceTime a) k) {d : Nat} (hd : d < 4) :
    s.TickDue (cadenceTime a) (k + (d + 1)) ↔ d + 1 = 4 :=
  State.tickDue_iff_of_lastSentMs hd (State.lastSentMs_after_due hdue hd)

theorem State.tickDue_every_fourth (hdue : s.TickDue (cadenceTime a) k) (j : Nat) :
    s.TickDue (cadenceTime a) (k + 4 * j) := by
  induction j with
  | zero => exact hdue
  | succ j ih => exact (State.tickDue_after_due_iff ih (Nat.lt_succ_self 3)).2 rfl

/-- From a send on, every fourth TICK is due and no other. -/
theorem State.tickDue_cadence_iff (hdue : s.TickDue (cadenceTime a) k) (n : Nat) :
    s.TickDue (cadenceTime a) (k + n) ↔ 4 ∣ n := by
  have hturn := State.tickDue_every_fourth hdue (n / 4)
  cases hd : n % 4 with
  | zero =>
    rw [Nat.mul_div_cancel' (Nat.dvd_of_mod_eq_zero hd)] at hturn
    exact iff_of_true hturn (Nat.dvd_of_mod_eq_zero hd)
  | succ d =>
    have hiff := State.tickDue_after_due_iff hturn (d := d) (by omega)
    rw [← hd, Nat.add_assoc, Nat.div_add_mod] at hiff
    rw [hiff]
    omega

end

/-- Settles O46: the TICKs that send are those that are due. -/
theorem tickCadence : Obligations.TickCadence := by
  intro s a k0 now Sends hfirst hnone k
  have hsends (k : Nat) : Sends k ↔ s.TickDue (cadenceTime a) k := s.sends_iff_tickDue (cadenceTime a) k
  obtain hlt | hle := Nat.lt_or_ge k k0
  · have hbefore : ¬ ∃ j, k = k0 + 4 * j := by
      rintro ⟨j, hj⟩
      omega
    exact iff_of_false (hnone k hlt) hbefore
  · obtain ⟨n, rfl⟩ := Nat.exists_eq_add_of_le hle
    rw [hsends, State.tickDue_cadence_iff ((hsends k0).1 hfirst)]
    exact exists_congr fun j => Nat.add_left_cancel_iff.symm

end Sys2Proof.Machine
end

section
/-! PROOF. Exceptions that change nothing: the appends and the reads that do not fit (spec/60_exceptions.md R124,
R125). -/

namespace Sys2Proof.Machine

variable {s : State}

/-! ### Appends past the end of the buffer (R124) -/

theorem State.addField_of_overflow {bs : List Byte} (h : 256 < s.tx.cursor + bs.length) :
    s.addField bs = s.answer (.err .bufferOverflow) :=
  if_pos h

/-- Settles O21: each append tests for the bytes of its own field. -/
theorem appendOverflowChangesNothing : Obligations.AppendOverflowChangesNothing := by
  intro s
  have overflow (bs : List Byte) (h : s.tx.cursor + bs.length > 256) :
      (.next (s.addField bs) : Outcome) = .next (s.answer (.err .bufferOverflow)) :=
    congrArg _ (State.addField_of_overflow h)
  refine ⟨fun v => overflow (leBytes 1 v), fun v => overflow (leBytes 2 v), fun v => overflow (leBytes 4 v), overflow,
    fun str h => overflow (stringField str) ?_⟩
  rwa [stringField_length]

/-! ### Reads past the end of the frame (R125) -/

/-- A GETSTRING whose length byte is there is one read of that byte and the bytes it announces (40_codec.md R92). -/
theorem execGetString_eq_fetch {u : CodecId} (hr : 1 ≤ s.remaining u) (hin : (s.codec u).cursor + 1 ≤ 256) :
    execGetString u s =
      s.fetch u (1 + (s.byte u (s.codec u).cursor).toNat) fun bs => .bytes (bs.drop 1) := by
  have hvalue (b : Byte) : leValue [b] = b.toNat := by simp [leValue]
  have hfirst := s.bytes?_of_le u hin
  rw [State.bytes_succ, State.bytes_zero] at hfirst
  rw [execGetString, if_neg (Nat.not_lt.2 hr), hfirst]
  simp only [hvalue]

/-- Settles O25: what remains is counted to the end of the frame, and GETSTRING counts twice, for the length byte and
then for the field it announces. -/
theorem shortReadsAreTruncated : Obligations.ShortReadsAreTruncated := by
  intro s hs
  rw [← State.remaining_ready hs]
  refine ⟨State.fetch_truncated _, State.fetch_truncated _, State.fetch_truncated _, fun _ => State.fetch_truncated _,
    execGetString_truncated, fun hlen hfirst hshort => ?_⟩
  have hin : s.rx.cursor + 1 ≤ 256 := by
    rw [State.remaining_ready hs] at hfirst
    omega
  exact (execGetString_eq_fetch hfirst hin).trans (State.fetch_truncated _ hshort)

end Sys2Proof.Machine
end

section
/-! PROOF. Which errors a command can report and what it has changed by then (spec/60_exceptions.md R120, R123). -/

namespace Sys2Proof.Machine

/-- In `n`, where command `i` that began in `s` has ended, an error it reports is one that R123 lists the command for;
and unless R120 lists the pair, only outputs have changed. -/
def ErrorsListed (i : Instr) (s n : State) : Prop :=
  ∀ e, n.results = s.results ++ [.err e] →
    mayRaise e i = true ∧ (keepsEarlierWrite e i = false → OnlyOutputs s n)

namespace ErrorsListed

variable {i : Instr} {s m n : State}

theorem of_next (hm : ErrorsListed i s m) (h : (.next m : Outcome) = .next n) : ErrorsListed i s n :=
  Host.Outcome.next.inj h ▸ hm

/-! ### The two ways to end a command -/

theorem ok {v : Value} (hm : m.results = s.results := by rfl) : ErrorsListed i s (m.answer (.ok v)) := by
  intro e he
  simp [hm] at he

/-- An error after whatever the command did before it: the pair stands in R123, and in R120 if more than outputs have
changed. -/
theorem err {e : Err} (hraised : mayRaise e i = true) (hkept : keepsEarlierWrite e i = false → OnlyOutputs s m)
    (hm : m.results = s.results := by rfl) : ErrorsListed i s (m.answer (.err e)) := by
  intro e' he
  obtain rfl : e = e' := by simpa [hm] using he
  exact ⟨hraised, fun h => (hkept h).answer _⟩

/-- An error as the command's one act. -/
theorem raise {e : Err} (hraised : mayRaise e i = true) : ErrorsListed i s (s.answer (.err e)) :=
  err hraised fun _ => .refl s

/-- An error that R120 lists. -/
theorem kept {e : Err} (hraised : mayRaise e i = true) (hkept : keepsEarlierWrite e i = true)
    (hm : m.results = s.results := by rfl) : ErrorsListed i s (m.answer (.err e)) :=
  err hraised (fun h => absurd hkept (by simp [h])) hm

/-! ### The shared operations -/

/-- The refusal of R77 is raised by exactly the mutating functions addressed to RX. -/
theorem onTx {u : CodecId} {f : State → State} (hi : i.mutates = some u) (hf : u = .tx → ErrorsListed i s (f s)) :
    ErrorsListed i s (s.onTx u f) := by
  cases u with
  | tx => exact hf rfl
  | rx => exact raise (by simp [mayRaise, hi])

theorem addField {u : CodecId} (hi : i.appends = some u) (hmut : i.mutates = some u) (s : State) (bs : List Byte) :
    ErrorsListed i s (s.onTx u fun s => s.addField bs) := by
  refine onTx hmut ?_
  rintro rfl
  obtain ⟨-, h⟩ | ⟨-, h⟩ := s.addField_cases bs <;> rw [h]
  · exact raise (by simp [mayRaise, hi])
  · exact ok

theorem fetch {u : CodecId} {k : Nat} {value : List Byte → Value} (hi : i.readsFields = some u)
    (h : s.fetch u k value = .next n) : ErrorsListed i s n := by
  obtain ⟨-, h⟩ | ⟨-, -, -, h⟩ | ⟨-, -, h⟩ := State.fetch_cases h
  · exact (raise (by simp [mayRaise, hi])).of_next h.symm
  · cases h
  · exact (ok (State.setCodec_results s u _)).of_next h.symm

/-- A sender that overflows has rewound the TX message, which R120 lists. -/
theorem sendString (hi : i.isSender = true) (s : State) (t : Byte) (str : List Byte) :
    ErrorsListed i s (s.sendString t str) := by
  obtain ⟨-, h⟩ | ⟨-, h⟩ := s.sendString_cases t str <;> rw [h]
  · exact kept (by simp [mayRaise, hi]) hi
  · exact ok

theorem transmit (p : Packet) (v : Value) (hraised : mayRaise .transmitFailure i = true)
    (hkept : keepsEarlierWrite .transmitFailure i = false → OnlyOutputs s m) (hm : m.results = s.results) :
    ErrorsListed i s (m.transmit p v) := by
  rw [State.transmit_spec]
  split
  · exact ok hm
  · refine err hraised (fun h => ?_) hm
    rw [hkept h]
    rfl

/-- A BIND or RBIND whose write fails has bound the slot, which R120 lists. -/
theorem bindSlot (hraised : mayRaise .persistenceFailure i = true)
    (hkept : keepsEarlierWrite .persistenceFailure i = true) (s : State) (slot : Fin 16) (pin : Fin 127) (r : Bool) :
    ErrorsListed i s (s.bindSlot slot pin r) := by
  obtain ⟨-, h⟩ | ⟨-, -, h⟩ | ⟨-, -, h⟩ := s.bindSlot_cases slot pin r <;> rw [h]
  · exact ok
  · rw [State.persist_eq_persisted]
    exact ok
  · rw [State.persist_eq_persisted]
    exact kept hraised hkept

/-! ### The commands with branches of their own -/

theorem reset {u : CodecId} (h : execReset u s = .next n) : ErrorsListed (.reset u) s n := by
  cases u <;> exact of_next ok h

theorem getType {u : CodecId} (h : execGetType u s = .next n) : ErrorsListed (.getType u) s n := by
  refine of_next ?_ h
  split
  next hrx =>
    obtain ⟨rfl, -⟩ := hrx
    exact raise rfl
  next => exact ok

theorem getString {u : CodecId} (h : execGetString u s = .next n) : ErrorsListed (.getString u) s n := by
  unfold execGetString at h
  split at h
  · exact (raise rfl).of_next h
  · split at h
    · cases h
    · exact fetch rfl h

theorem send {u : CodecId} (h : execSend u s = .next n) : ErrorsListed (.send u) s n := by
  cases u with
  | rx => exact (raise rfl).of_next h
  | tx =>
    simp only [execSend] at h
    split at h
    · cases h
    · exact of_next ok h

/-- A refused length has sent the hunt back to its start, which R120 lists. -/
theorem rxLength (s : State) (b : Byte) : ErrorsListed (.rxByte b) s (s.rxLength b) := by
  unfold State.rxLength
  split
  · exact kept rfl rfl
  · exact ok

theorem rxBody (s : State) (b : Byte) : ErrorsListed (.rxByte b) s (s.rxBody b) := by
  unfold State.rxBody
  simp only
  split <;> exact ok

theorem rxByte {b : Byte} (h : execRxByte b s = .next n) : ErrorsListed (.rxByte b) s n := by
  unfold execRxByte at h
  split at h
  · refine of_next ?_ h
    split <;> exact ok
  · exact of_next ok h
  · exact (rxLength s b).of_next h
  · split at h
    · exact (rxBody s b).of_next h
    · cases h
  · exact (raise rfl).of_next h

theorem init (h : execInit s = .next n) : ErrorsListed .init s n := by
  refine of_next ?_ h
  split
  · exact ok
  · exact err rfl fun _ => rfl

theorem bind {slot : Byte} {pin : Half} {rev : Byte} (h : execBind slot pin rev s = .next n) :
    ErrorsListed (.bind slot pin rev) s n := by
  refine of_next ?_ h
  split
  · exact raise rfl
  · split
    · exact raise rfl
    · split
      · exact raise rfl
      · exact bindSlot rfl rfl s _ _ _

/-- A CLEAR whose write fails has unbound the slots, which R120 lists. -/
theorem clear (h : execClear s = .next n) : ErrorsListed .clear s n := by
  refine of_next ?_ h
  rw [State.persist_eq_persisted]
  split
  · exact ok
  · exact kept rfl rfl

theorem rbind {slot packed : Byte} (h : execRbind slot packed s = .next n) : ErrorsListed (.rbind slot packed) s n := by
  refine of_next ?_ h
  split
  · exact raise rfl
  · split
    · exact raise rfl
    · exact bindSlot rfl rfl s _ _ _

/-- A TICK whose packet is not sent has set LastSentMs, which R120 lists. -/
theorem tick (s : State) (now : Word) : ErrorsListed (.tick now) s (s.ticked now) := by
  by_cases hdue : 20 ≤ (now - s.lastSentMs).toNat
  · rw [State.ticked_of_due hdue]
    exact transmit _ _ rfl nofun (s.marked now).buildPacket_results
  · rw [State.ticked_of_not_due hdue]
    exact ok

end ErrorsListed

/-- The errors of every command that completes. -/
theorem exec_errorsListed {i : Instr} {s n : State} (h : exec i s = .next n) : ErrorsListed i s n := by
  cases i with
  | reset u => exact .reset h
  | setType u t => exact (ErrorsListed.onTx rfl fun _ => .ok).of_next h
  | getType u => exact .getType h
  | getLength u => exact ErrorsListed.of_next .ok h
  | addFixedB u v => exact (ErrorsListed.addField rfl rfl s _).of_next h
  | addFixedH u v => exact (ErrorsListed.addField rfl rfl s _).of_next h
  | addFixedW u v => exact (ErrorsListed.addField rfl rfl s _).of_next h
  | getFixedB u => exact .fetch rfl h
  | getFixedH u => exact .fetch rfl h
  | getFixedW u => exact .fetch rfl h
  | addBytes u data => exact (ErrorsListed.addField rfl rfl s _).of_next h
  | getBytes u k => exact .fetch rfl h
  | addString u str => exact (ErrorsListed.addField rfl rfl s _).of_next h
  | getString u => exact .getString h
  | send u => exact .send h
  | sendFw str => exact (ErrorsListed.sendString rfl s _ str).of_next h
  | sendPv str => exact (ErrorsListed.sendString rfl s _ str).of_next h
  | sendLog str => exact (ErrorsListed.sendString rfl s _ str).of_next h
  | rxByte b => exact .rxByte h
  | init => exact .init h
  | bind slot pin rev => exact .bind h
  | clear => exact .clear h
  | rbind slot packed => exact .rbind h
  | tick now => exact (ErrorsListed.tick s now).of_next h
  | build => exact ErrorsListed.of_next (.ok s.buildPacket_results) h
  | xmit packet => exact (ErrorsListed.transmit packet _ rfl (fun _ => .refl s) rfl).of_next h

/-- Settles O51: an error that R120 does not list comes before any change to the block. -/
theorem errorsArePrecise : Obligations.ErrorsArePrecise := by
  intro i s n e h he
  obtain ⟨-, hprecise⟩ := exec_errorsListed h e he
  exact hprecise

/-- Settles O52: each error stands in a branch of a command that R123 lists for it. -/
theorem errorsComeFromTheirCommands : Obligations.ErrorsComeFromTheirCommands := by
  intro i s n e h he
  obtain ⟨hraised, -⟩ := exec_errorsListed h e he
  exact hraised

end Sys2Proof.Machine
end

section
/-! PROOF. Power-on (spec/70_reset_and_hazards.md R140) and the spacing of the packets that TICKs send (R150). -/

namespace Sys2Proof.Machine

/-! ### Power-on (R140) -/

/-- Settles O2: power-on takes the block state of `State.reset`, written out here, and has no part in the storage
region. -/
theorem powerOnKeepsStorage : Obligations.PowerOnKeepsStorage := fun _ => ⟨rfl, fun _ => rfl⟩

/-! ### TICKs that send nothing -/

section
variable {s : State} {now : Nat → Word} {n : Nat}

/-- The TICKs that send a packet are those that come 20 ms or more after LastSentMs. -/
theorem State.ticked_sends_iff (s : State) (now : Word) :
    (s.ticked now).packetsSent = s.packetsSent + 1 ↔ 20 ≤ (now - s.lastSentMs).toNat := by
  simp [State.ticked_packetsSent]

/-- TICKs never take a packet back. -/
theorem State.afterTicks_packetsSent_monotone (s : State) (now : Nat → Word) :
    Monotone fun k => (s.afterTicks now k).packetsSent :=
  monotone_nat_of_le_succ fun _ => (Nat.le_add_right _ _).trans_eq (State.ticked_packetsSent _ _).symm

/-- If no packet was sent, no TICK was due. -/
theorem State.not_tickDue_of_packetsSent (hsent : (s.afterTicks now n).packetsSent = s.packetsSent) {k : Nat}
    (hk : k < n) : ¬ s.TickDue now k := by
  intro hdue
  have hbefore : s.packetsSent ≤ (s.afterTicks now k).packetsSent :=
    s.afterTicks_packetsSent_monotone now (Nat.zero_le k)
  have hafter : (s.afterTicks now (k + 1)).packetsSent ≤ (s.afterTicks now n).packetsSent :=
    s.afterTicks_packetsSent_monotone now hk
  have hstep : (s.afterTicks now (k + 1)).packetsSent = (s.afterTicks now k).packetsSent + 1 :=
    (State.ticked_sends_iff _ _).2 hdue
  omega

/-- LastSentMs stays as long as no TICK is due. -/
theorem State.lastSentMs_of_not_tickDue (hnone : ∀ k < n, ¬ s.TickDue now k) :
    (s.afterTicks now n).lastSentMs = s.lastSentMs := by
  induction n with
  | zero => rfl
  | succ n ih =>
    exact (State.afterTicks_succ_of_not_due (hnone n n.lt_succ_self)).trans
      (ih fun k hk => hnone k (Nat.lt_succ_of_lt hk))

end

/-! ### The spacing of sends (R150) -/

section
variable {s : State} {t : Nat → Nat} {n Δ : Nat}

/-- The operand of TICK number `k`, where `t (k + 1)` ms have then passed since LastSentMs. -/
def State.timeOfElapsed (s : State) (t : Nat → Nat) (k : Nat) : Word := s.lastSentMs + BitVec.ofNat 32 (t (k + 1))

/-- Where no TICK before it was due, a TICK is due from 20 ms after LastSentMs on, until the clock wraps (R151). -/
theorem State.tickDue_timeOfElapsed_iff (hnone : ∀ k < n, ¬ s.TickDue (s.timeOfElapsed t) k)
    (hwrap : t (n + 1) < 2 ^ 32) : s.TickDue (s.timeOfElapsed t) n ↔ 20 ≤ t (n + 1) := by
  rw [State.TickDue, State.lastSentMs_of_not_tickDue hnone, State.timeOfElapsed, add_sub_cancel_left,
    BitVec.toNat_ofNat, Nat.mod_eq_of_lt hwrap]

/-- Less than 20 ms have passed while no TICK was due: no single gap is long enough
to carry the clock past its wrap. -/
theorem State.elapsed_lt_of_not_tickDue (hstart : t 0 < 20) (hgap : ∀ k < n, t (k + 1) ≤ t k + Δ)
    (hwrap : 20 + Δ ≤ 2 ^ 32) (hnone : ∀ k < n, ¬ s.TickDue (s.timeOfElapsed t) k) : t n < 20 := by
  induction n with
  | zero => exact hstart
  | succ n ih =>
    have hnoneBefore (k : Nat) (hk : k < n) := hnone k (Nat.lt_succ_of_lt hk)
    have hlt : t n < 20 := ih (fun k hk => hgap k (Nat.lt_succ_of_lt hk)) hnoneBefore
    have hlast : t (n + 1) ≤ t n + Δ := hgap n n.lt_succ_self
    have hdue := State.tickDue_timeOfElapsed_iff hnoneBefore (by omega)
    exact Nat.not_le.1 (mt hdue.2 (hnone n n.lt_succ_self))

end

/-- Settles O47: before the last TICK less than 20 ms have passed, as none was due, and the last gap adds at most Δ. -/
theorem sendSpacing : Obligations.SendSpacing := by
  intro s before after gaps g Δ hgaps hwrap now hrun hquiet hlast hsend
  obtain ⟨hg, hearlier⟩ := List.forall_mem_cons.1 hgaps
  have hbefore : s.afterTicks (s.timeOfElapsed fun k => (gaps.take k).sum) gaps.length = before :=
    Host.Outcome.next.inj ((runAll_ticks _ _ _).symm.trans hrun)
  have hafter : before.ticked (now gaps.length + BitVec.ofNat 32 g) = after :=
    Host.Outcome.next.inj ((exec_tick _ _).symm.trans hlast)
  subst hbefore hafter
  have hnone (k : Nat) (hk : k < gaps.length) := State.not_tickDue_of_packetsSent hquiet hk
  have hupper : (gaps.take gaps.length).sum < 20 := by
    refine State.elapsed_lt_of_not_tickDue (t := fun k => (gaps.take k).sum) (by simp) (fun k hk => ?_) hwrap hnone
    rw [List.sum_take_succ gaps k hk]
    exact Nat.add_le_add_left (hearlier _ (List.getElem_mem hk)) _
  have hlower : 20 ≤ (BitVec.ofNat 32 (gaps.sum + g)).toNat := by
    rw [State.ticked_sends_iff, State.lastSentMs_of_not_tickDue hnone] at hsend
    simpa only [now, List.take_length, add_assoc, ← BitVec.ofNat_add, add_sub_cancel_left] using hsend
  rw [List.take_length] at hupper
  rw [BitVec.toNat_ofNat] at hlower
  exact ⟨hlower.trans (Nat.mod_le _ _), by omega⟩

end Sys2Proof.Machine
end
